-- ==== Sys2Proof/Word.lean ====
section
/-! DEFINITION. The value types of the datapath (00_scope.md rule R17). -/

namespace Sys2Proof

/-- A byte, an 8-bit vector (00_scope.md rule R17). -/
abbrev Byte := BitVec 8

/-- A semiblock: a 64-bit vector read as 8 bytes, byte 0 in bits 63:56 (00_scope.md rule R17). -/
abbrev Semiblock := BitVec 64

/-- A cipher block: a 128-bit vector read as 16 bytes, byte 0 in bits 127:120 (00_scope.md rule R17). -/
abbrev Block := BitVec 128

/-- A key-encryption key: its length in bytes and its bytes, offset 0 first (00_scope.md rule R17). The type admits
more values than rule R17 does; those of rule R17 are the ones with `Kek.wf`. -/
structure Kek where
  klen : Nat
  kb   : List Byte
deriving DecidableEq, Repr

/-- The values of the type `Kek` of 00_scope.md rule R17: 16, 24 or 32 bytes, as many as its length says. -/
def Kek.wf (kek : Kek) : Bool :=
  decide ((kek.klen = 16 ∨ kek.klen = 24 ∨ kek.klen = 32) ∧ kek.kb.length = kek.klen)

end Sys2Proof
end

