-- ==== Sys2Proof/Syntax.lean ====
section
/-! DEFINITION. The instructions: one constructor per row of spec/opcode_table.json, and the payload a START
carries. -/

namespace Sys2Proof

/-- The payload of a START: `KEKBUF[0..31]` and `DIN[0..39]` (20_memory.md rules R60 and R61). Its bytes beyond
`KLEN` and `DLEN` are there and are ignored (rule R70). -/
structure Payload where
  kekbuf : Vector Byte 32
  din    : Vector Byte 40
deriving DecidableEq, Repr

/-- Who takes a step (00_scope.md rule R19). -/
inductive Agent
  | host
  | engine
  | environment
deriving DecidableEq, Repr

/-- The commands, engine steps and inputs of spec/opcode_table.json, one constructor per row. The two length
operands are byte counts, so they are naturals; that they fit the 8-bit fields of the command word is checked by
`Instr.wf` (00_scope.md rule R13, 30_encoding.md rule R97 computes with them in unbounded naturals). -/
inductive Instr
  /-- `START.W klen, dlen` with its payload (30_encoding.md rule R92). -/
  | startW (klen dlen : Nat) (pay : Payload)
  /-- `START.U klen, dlen` with its payload (30_encoding.md rule R93). -/
  | startU (klen dlen : Nat) (pay : Payload)
  /-- `ACK`; the 17 low bits of its word are carried and ignored (30_encoding.md rule R94). -/
  | ack (ignored : BitVec 17)
  /-- `WSTEP`, one forward round step (42_wrap.md rule R163). -/
  | wstep
  /-- `USTEP`, one inverse round step (43_unwrap.md rule R183). -/
  | ustep
  /-- `WFIN` (42_wrap.md rule R165). -/
  | wfin
  /-- `UFIN` (43_unwrap.md rule R186). -/
  | ufin
  /-- `READ`: the host samples `STATUS` and `DOUT` (44_host.md rule R203). -/
  | read
  /-- `RESET`: the environment's reset input (70_reset_and_hazards.md rule R250). -/
  | reset
deriving DecidableEq, Repr

/-- The encoded objects that select an instruction (30_encoding.md rules R90, R95 and R102): a host command word
with the payload presented beside it, the engine's step selector, and the two inputs that have no bit pattern,
the read port and the reset input. -/
inductive Stimulus
  | command (hc : BitVec 18) (pay : Payload)
  | selector (sel : BitVec 3)
  | readPort
  | resetLine
deriving DecidableEq, Repr

end Sys2Proof
end

