-- ==== Sys2Proof/WellFormed.lean ====
section
/-! DEFINITION. Which instructions the hardware's words can express. The one bound the types leave open is that the
two length operands fit their 8-bit fields (00_scope.md rule R13); every other operand value is legal
(30_encoding.md rule R103). -/

namespace Sys2Proof

/-- `LENW` = 8: a byte count the command word can hold, 0..255 (00_scope.md rule R13). -/
def lengthFits (len : Nat) : Bool := decide (len < 256)

/-- An instruction is well formed when its word exists. Only a START has operands the word could be too narrow for. -/
def Instr.wf : Instr → Bool
  | .startW klen dlen _ => lengthFits klen && lengthFits dlen
  | .startU klen dlen _ => lengthFits klen && lengthFits dlen
  | .ack _ => true
  | .wstep => true
  | .ustep => true
  | .wfin => true
  | .ufin => true
  | .read => true
  | .reset => true

end Sys2Proof
end

