-- ==== Sys2Proof/Decode.lean ====
section
/-! DEFINITION. The decoder, the encoder and the opcode table (30_encoding.md, spec/opcode_table.json). -/

namespace Sys2Proof

/-- The payload of zero bytes. -/
def Payload.zero : Payload := { kekbuf := Vector.replicate 32 0, din := Vector.replicate 40 0 }

/-- Why a selector names no engine step (30_encoding.md rule R100). -/
inductive DecodeError
  /-- `SEL = 000` or `001`: in IDLE the engine waits for START. -/
  | waitsForStart
  /-- `SEL = 110` or `111`: in DONE the engine waits for ACK. -/
  | waitsForAck
deriving DecidableEq, Repr

/-- Field `KLEN` of the command word, bits 15:8 (30_encoding.md rule R91). -/
def hcKlen (hc : BitVec 18) : Nat := (hc.extractLsb' 8 8).toNat

/-- Field `DLEN` of the command word, bits 7:0 (30_encoding.md rule R91). -/
def hcDlen (hc : BitVec 18) : Nat := (hc.extractLsb' 0 8).toNat

/-- The three host command patterns, decoded on `HC[17:16]`; every word decodes (30_encoding.md rules R91 to R94
and R103). -/
def decodeCommand (hc : BitVec 18) (pay : Payload) : Instr :=
  if hc.getLsbD 17 then .ack (hc.extractLsb' 0 17)
  else if hc.getLsbD 16 then .startU (hcKlen hc) (hcDlen hc) pay
  else .startW (hcKlen hc) (hcDlen hc) pay

/-- The step selector `SEL = ST ∥ DIR`, all eight values (30_encoding.md rule R100). -/
def decodeSelector (sel : BitVec 3) : Except DecodeError Instr :=
  match sel.toNat with
  | 2 => .ok .wstep
  | 3 => .ok .ustep
  | 4 => .ok .wfin
  | 5 => .ok .ufin
  | 0 => .error .waitsForStart
  | 1 => .error .waitsForStart
  | _ => .error .waitsForAck

/-- The decoder, total on every encoded object. -/
def decode : Stimulus → Except DecodeError Instr
  | .command hc pay => .ok (decodeCommand hc pay)
  | .selector sel => decodeSelector sel
  | .readPort => .ok .read
  | .resetLine => .ok .reset

/-- A START word: `ACKF ∥ DIR ∥ KLEN ∥ DLEN` with `ACKF = 0` (30_encoding.md rules R91 to R93). -/
def startWord (dirBit : BitVec 1) (klen dlen : Nat) : BitVec 18 :=
  0#1 ++ dirBit ++ BitVec.ofNat 8 klen ++ BitVec.ofNat 8 dlen

/-- The ACK word with the given ignored bits (30_encoding.md rule R94). -/
def ackWord (ignored : BitVec 17) : BitVec 18 := 1#1 ++ ignored

/-- The encoder, written from 30_encoding.md rules R92 to R95 and R100. An ACK is presented with no payload, for
which the zero payload stands: no rule reads it (assumption log 10). -/
def encode : Instr → Stimulus
  | .startW klen dlen pay => .command (startWord 0#1 klen dlen) pay
  | .startU klen dlen pay => .command (startWord 1#1 klen dlen) pay
  | .ack ignored => .command (ackWord ignored) Payload.zero
  | .wstep => .selector 0b010#3
  | .ustep => .selector 0b011#3
  | .wfin => .selector 0b100#3
  | .ufin => .selector 0b101#3
  | .read => .readPort
  | .reset => .resetLine

/-- Who takes the step of an instruction (00_scope.md rule R19; the "agent" of spec/opcode_table.json). -/
def Instr.agent : Instr → Agent
  | .startW _ _ _ => .host
  | .startU _ _ _ => .host
  | .ack _ => .host
  | .wstep => .engine
  | .ustep => .engine
  | .wfin => .engine
  | .ufin => .engine
  | .read => .host
  | .reset => .environment

/-- The "format" of a row of spec/opcode_table.json: which encoded object the row's pattern is of. -/
inductive RowFormat
  | hc
  | sel
  | none
deriving DecidableEq, Repr

/-- A row of spec/opcode_table.json. A row without a pattern (READ, RESET) has mask and match 0. -/
structure Row where
  mnemonic : String
  format   : RowFormat
  mask     : Nat
  pattern  : Nat
deriving DecidableEq, Repr

/-- spec/opcode_table.json, row by row. -/
def opcodeTable : List Row :=
  [ { mnemonic := "START.W", format := .hc, mask := 0x30000, pattern := 0x00000 },
    { mnemonic := "START.U", format := .hc, mask := 0x30000, pattern := 0x10000 },
    { mnemonic := "ACK", format := .hc, mask := 0x20000, pattern := 0x20000 },
    { mnemonic := "WSTEP", format := .sel, mask := 0x7, pattern := 0x2 },
    { mnemonic := "USTEP", format := .sel, mask := 0x7, pattern := 0x3 },
    { mnemonic := "WFIN", format := .sel, mask := 0x7, pattern := 0x4 },
    { mnemonic := "UFIN", format := .sel, mask := 0x7, pattern := 0x5 },
    { mnemonic := "READ", format := .none, mask := 0, pattern := 0 },
    { mnemonic := "RESET", format := .none, mask := 0, pattern := 0 } ]

/-- The row of an instruction, by its place in the table. -/
def Instr.rowIndex : Instr → Fin 9
  | .startW _ _ _ => 0
  | .startU _ _ _ => 1
  | .ack _ => 2
  | .wstep => 3
  | .ustep => 4
  | .wfin => 5
  | .ufin => 6
  | .read => 7
  | .reset => 8

/-- The row of an instruction. -/
def Instr.row (i : Instr) : Row := opcodeTable.get (Fin.cast rfl i.rowIndex)

/-- An encoded object fits a row: it is of the row's format and its bits under the mask are the match. -/
def Row.fits (r : Row) : Stimulus → Bool
  | .command hc _ => decide (r.format = .hc ∧ hc &&& BitVec.ofNat 18 r.mask = BitVec.ofNat 18 r.pattern)
  | .selector sel => decide (r.format = .sel ∧ sel &&& BitVec.ofNat 3 r.mask = BitVec.ofNat 3 r.pattern)
  | .readPort => decide (r.format = .none ∧ r.mnemonic = "READ")
  | .resetLine => decide (r.format = .none ∧ r.mnemonic = "RESET")

/-- Two rows of one format share a word exactly when their matches agree wherever both masks look. -/
def Row.overlap (r q : Row) : Bool :=
  decide (r.format = q.format ∧ r.format ≠ .none ∧ (r.pattern ^^^ q.pattern) &&& r.mask &&& q.mask = 0)

/-- The encoded object of a table word: a word of at most 8 bits is a step selector, a longer one a command word
with a payload of zero bytes; a word with a bit above its format's width, and a row of no bits, is none
(assumption log 10). -/
def tableStimulus (nbits w : Nat) : Option Stimulus :=
  if nbits = 0 then none
  else if nbits ≤ 8 then (if w < 2 ^ 3 then some (.selector (BitVec.ofNat 3 w)) else none)
  else if w < 2 ^ 18 then some (.command (BitVec.ofNat 18 w) Payload.zero) else none

/-- The instruction the decoder reads from a table word, none where it refuses. -/
def decodeTableWord (nbits w : Nat) : Option Instr :=
  match tableStimulus nbits w with
  | none => none
  | some x =>
    match decode x with
    | .ok i => some i
    | .error _ => none

end Sys2Proof
end

