-- ==== Sys2Proof/Config.lean ====
section
/-! DEFINITION. The fixed constants of the algorithm (00_scope.md rule R11), the parameter `BlockCipher`
(00_scope.md rule R14, 92_eei_decisions.md D11) and the opaque constant that stands for the cipher connected
to the port. -/

namespace Sys2Proof

/-- The block-cipher parameter: a pair of total functions (00_scope.md rule R14, 41_blockcipher_port.md
rules R141 and R142). It is configuration, never state. On a `Kek` value that is not well formed, where the spec gives
no cipher, the functions have some value of which nothing is assumed (assumption log 1). -/
structure BlockCipher where
  enc : Kek → Block → Block
  dec : Kek → Block → Block

/-- `BC_INV` of 41_blockcipher_port.md rule R143: each direction inverts the other, for every KEK that 00_scope.md rule
R17 admits. It is a hypothesis that a statement names where it needs it, never an assumption of the model. -/
def BlockCipher.BcInv (bc : BlockCipher) : Prop :=
  ∀ kek : Kek, kek.wf = true → ∀ blk, bc.dec kek (bc.enc kek blk) = blk ∧ bc.enc kek (bc.dec kek blk) = blk

namespace Config

/-- `IV`, eight bytes of value 0xA6; a constant, not state (00_scope.md rule R11, 10_state.md rule R46). -/
def iv : Semiblock := 0xA6A6A6A6A6A6A6A6#64

/-- `ROUNDS`: the round index j runs over 0..5 (00_scope.md rule R11). -/
abbrev rounds : Nat := 6

/-- `SEMI`: bytes in a semiblock (00_scope.md rule R11). -/
abbrev semiBytes : Nat := 8

/-- The encryption of the cipher connected to the port. No body: DOC does not define AES and no rule depends
on it (41_blockcipher_port.md rules R141 and R144; assumption log 1). -/
opaque portEnc : Kek → Block → Block

/-- The decryption of the cipher connected to the port. No body (41_blockcipher_port.md rule R142; assumption log 1). -/
opaque portDec : Kek → Block → Block

/-- The cipher the machine's own step uses: whatever is connected to the port. -/
def blockCipher : BlockCipher := { enc := portEnc, dec := portDec }

end Config

end Sys2Proof
end

