-- ==== Sys2Proof/Machine/State.lean ====
section
/-! DEFINITION. The state of KWCORE (10_state.md), the inputs of its environment and what it has shown of itself at
its two output ports; the reasons a step can stop; the state after reset. -/

namespace Sys2Proof.Machine

/-- `ST`, the sequencer state; its 2-bit codes are `Seq.bits` (10_state.md rule R34). -/
inductive Seq
  | idle
  | run
  | fin
  | done
deriving DecidableEq, Repr

/-- `DIR`: forward (0) or inverse (1) (10_state.md rule R38). -/
inductive Dir
  | wrap
  | unwrap
deriving DecidableEq, Repr

/-- `RES`, the result of a call; its 2-bit codes are `Res.bits` (10_state.md rule R39). -/
inductive Res
  | none
  | ok
  | invalidLength
  | authFailure
deriving DecidableEq, Repr

/-- The two error kinds (60_exceptions.md rule R220). -/
inductive ErrorKind
  | invalidLength
  | authenticationFailure
deriving DecidableEq, Repr

/-- `OP` of a cipher-port request; its code is `PortOp.bit` (30_encoding.md rule R99). -/
inductive PortOp
  | enc
  | dec
deriving DecidableEq, Repr

/-- A request on the cipher port (30_encoding.md rule R99). `KEY` is held as its 32 bytes, `KEKR[0]` first; the
256-bit field is `PortRequest.keyField`. -/
structure PortRequest where
  op   : PortOp
  klen : BitVec 8
  key  : Vector Byte 32
  blk  : Block
deriving DecidableEq, Repr

/-- What one READ returns to the host: `STATUS` and `DOUT` (44_host.md rule R203). -/
structure Readout where
  status : BitVec 12
  dout   : Vector Byte 40
deriving DecidableEq, Repr

/-- The registers of the summary table of 10_state.md. `IV` is a constant (`Config.iv`), not a register. -/
structure Regs where
  /-- `A`, the integrity register (rule R30). -/
  a     : Semiblock
  /-- `R[0..3]`, the key semiblocks (rule R31). -/
  r     : Vector Semiblock 4
  /-- `N`, the number of key semiblocks (rule R38). -/
  n     : BitVec 3
  /-- `J`, the round index (rule R34). -/
  j     : BitVec 3
  /-- `I`, the semiblock index (rule R34). -/
  i     : BitVec 2
  /-- `DIR` (rule R38). -/
  dir   : Dir
  /-- `ST` (rule R34). -/
  st    : Seq
  /-- `KLENR`, the latched KEK length in bytes (rule R43). -/
  klenr : BitVec 8
  /-- `KEKR[0..31]`, the latched KEK bytes (rule R43). -/
  kekr  : Vector Byte 32
  /-- `RES` (rule R39). -/
  res   : Res
  /-- `OLEN`, the number of valid bytes of `DOUT` (rule R42). -/
  olen  : BitVec 8
  /-- `DOUT[0..39]`, the output buffer (rule R44). -/
  dout  : Vector Byte 40
deriving DecidableEq, Repr

/-- What the agents outside the engine do, in the order they do it (00_scope.md rule R19), and whose turn it is:
the host presents a command word with a payload or samples the outputs, the environment resets, the engine takes
its turn. A list of these is one interleaving of the agents (assumption log 2). -/
inductive Input
  | command (hc : BitVec 18) (pay : Payload)
  | readPort
  | resetLine
  | engineTurn
deriving DecidableEq, Repr

/-- The machine with its surroundings: the registers; the turns still to come (the model's own, assumption log 2);
the requests the cipher port has seen and the samples the host has taken, oldest first (what left the engine at its
two output ports, assumption log 3). -/
structure State where
  regs     : Regs
  inputs   : List Input
  requests : List PortRequest
  reads    : List Readout
deriving DecidableEq, Repr

/-- Reasons to stop with a fault. There is none: "No behaviour of the hardware itself is treated as `fault`"
(93_implementation_defined.md section 1); the two error kinds are results. -/
inductive Fault
deriving DecidableEq, Repr

/-- Reasons to refuse an instruction. -/
inductive Refusal
  /-- An arm of `exec` whose instruction has no meaning yet. No arm raises it: every instruction has its meaning.
  Safe: the machine would stop where the hardware goes on. -/
  | notModelled (mnemonic : String)
deriving DecidableEq, Repr

/-- Every register zero, `ST = IDLE`, `RES = NONE` (10_state.md rule R49, 70_reset_and_hazards.md rule R252). -/
def Regs.reset : Regs :=
  { a := 0#64, r := Vector.replicate 4 0#64, n := 0#3, j := 0#3, i := 0#2, dir := .wrap, st := .idle,
    klenr := 0#8, kekr := Vector.replicate 32 0#8, res := .none, olen := 0#8, dout := Vector.replicate 40 0#8 }

/-- The machine right after reset: the registers as rule R49 says, no turn of another agent pending, nothing seen
yet at the output ports (assumption log 12). -/
def State.reset : State := { regs := Regs.reset, inputs := [], requests := [], reads := [] }

end Sys2Proof.Machine
end

