-- ==== Sys2Proof/Machine/Operands.lean ====
section
/-! DEFINITION. The semiblock pipeline and the counter converter (40_semiblock.md), the buffer primitives
(20_memory.md rules R62 and R63), and how a step assembles its operands: the register file, the KEK, the round
position (10_state.md rule R36), the validity of a START (30_encoding.md rule R97). -/

namespace Sys2Proof.Machine

/-- Byte k of a semiblock, `s[63-8k : 56-8k]` (00_scope.md rule R17). -/
def semiByte (s : Semiblock) (k : Nat) : Byte := s.extractLsb' (8 * (7 - k)) 8

/-- Byte k of a block, `b[127-8k : 120-8k]` (00_scope.md rule R17). -/
def blockByte (b : Block) (k : Nat) : Byte := b.extractLsb' (8 * (15 - k)) 8

/-- `MemRead(buf, off, m)`: m bytes of a buffer as a vector, the byte at the lowest offset the most significant
(20_memory.md rule R62). -/
def memRead (buf : List Byte) (off : Nat) : (m : Nat) → BitVec (8 * m)
  | 0 => 0#0
  | m + 1 => memRead buf off m ++ buf.getD (off + m) 0#8

/-- `MemWrite(DOUT, off, m, v)`: byte k of v, most significant first, to offset off + k (20_memory.md rule R63). -/
def memWrite (d : Vector Byte 40) (off m : Nat) (v : BitVec (8 * m)) : Vector Byte 40 :=
  Vector.ofFn fun p =>
    if off ≤ p.val ∧ p.val < off + m then v.extractLsb' (8 * (m - 1 - (p.val - off))) 8 else d[p]

/-- `MemRead(buf, off, 8)`, one semiblock. -/
def loadSemi (buf : List Byte) (off : Nat) : Semiblock := memRead buf off Config.semiBytes

/-- `SPLIT(buf, m)`, for a buffer of 8m bytes (40_semiblock.md rule R120; the length is a precondition of its
users, 93_implementation_defined.md U1; assumption log 14). -/
def split (buf : List Byte) (m : Nat) : List Semiblock :=
  (List.range m).map fun k => loadSemi buf (Config.semiBytes * k)

/-- The 8 bytes of a semiblock, byte 0 first. -/
def semiBytesOf (s : Semiblock) : List Byte := (List.range Config.semiBytes).map (semiByte s)

/-- `JOIN(chunks)`: concatenation in order (40_semiblock.md rule R121). -/
def join (l : List Semiblock) : List Byte := l.flatMap semiBytesOf

/-- `CAT(a, b) = a ∥ b` (40_semiblock.md rule R122). -/
def cat (a b : Semiblock) : Block := a ++ b

/-- `HI(B) = B[127:64]` (40_semiblock.md rule R122). -/
def hi (b : Block) : Semiblock := b.extractLsb' 64 64

/-- `LO(B) = B[63:0]` (40_semiblock.md rule R122). -/
def lo (b : Block) : Semiblock := b.extractLsb' 0 64

/-- `CTR(n, j, i) = n·j + i + 1` in naturals (40_semiblock.md rule R124). -/
def ctr (n j i : Nat) : Nat := n * j + i + 1

/-- `BE64(t) = zext_64(t)`, for t below 2^64 (40_semiblock.md rule R126). At 2^64 and above, outside its domain, it is
t mod 2^64: DESIGN CHOICE, the spec gives no value there (assumption log 14). -/
def be64 (t : Nat) : Semiblock := BitVec.ofNat 64 t

/-- `XORCTR(s, t) = s xor BE64(t)` (40_semiblock.md rule R127), on the domain of `BE64` (assumption log 14). -/
def xorCtr (s : Semiblock) (t : Nat) : Semiblock := s ^^^ be64 t

/-- The number of the `DIR` bit (30_encoding.md rule R91). -/
def Dir.num : Dir → Nat
  | .wrap => 0
  | .unwrap => 1

/-- A KEK length the algorithm admits (00_scope.md rule R10). -/
def kekLengthOk (klen : Nat) : Bool := decide (klen = 16 ∨ klen = 24 ∨ klen = 32)

/-- `VALID(DIR, KLEN, DLEN)`, computed in unbounded naturals (30_encoding.md rule R97). -/
def valid (dir : Dir) (klen dlen : Nat) : Bool := kekLengthOk klen && decide (dlen = klen + 8 * dir.num)

/-- `R[k]`. -/
def Regs.readR (e : Regs) (k : BitVec 2) : Semiblock := e.r[k.toNat]'k.isLt

/-- `R[k] <- v`. -/
def Regs.writeR (e : Regs) (k : BitVec 2) (v : Semiblock) : Regs := { e with r := e.r.set k.toNat v k.isLt }

/-- A register file from the semiblocks of a buffer, zero above them (42_wrap.md rule R161, 43_unwrap.md rule R181). -/
def registerFile (l : List Semiblock) : Vector Semiblock 4 := Vector.ofFn fun k => l.getD k.val 0#64

/-- `KEKR[k] <- KEKBUF[k]` below `KLEN`, zero above (10_state.md rule R43). -/
def latchedKek (klen : Nat) (kekbuf : Vector Byte 32) : Vector Byte 32 :=
  Vector.ofFn fun k => if k.val < klen then kekbuf[k] else 0#8

/-- `KEK = (KLENR, KEKR[0..KLENR-1])` (10_state.md rule R43). -/
def Regs.kek (e : Regs) : Kek := { klen := e.klenr.toNat, kb := e.kekr.toList.take e.klenr.toNat }

/-- `t = CTR(N, J, I)`, assembled from the state (30_encoding.md rule R101). -/
def Regs.counter (e : Regs) : Nat := ctr e.n.toNat e.j.toNat e.i.toNat

/-- `next_wrap`, `none` for LAST (10_state.md rule R36). `I < n-1` is written `I + 1 < n`
(assumption log 13). -/
def nextWrap (n j : BitVec 3) (i : BitVec 2) : Option (BitVec 3 × BitVec 2) :=
  if i.toNat + 1 < n.toNat then some (j, i + 1#2)
  else if j.toNat < 5 then some (j + 1#3, 0#2)
  else none

/-- `next_unwrap`, `none` for LAST (10_state.md rule R36). -/
def nextUnwrap (n j : BitVec 3) (i : BitVec 2) : Option (BitVec 3 × BitVec 2) :=
  if 0 < i.toNat then some (j, i - 1#2)
  else if 0 < j.toNat then some (j - 1#3, (n - 1#3).setWidth 2)
  else none

end Sys2Proof.Machine
end

