-- ==== Sys2Proof/Machine/Flags.lean ====
section
/-! DEFINITION. The codes of the status fields, the status word, the two level outputs, the step selector and the
fields of a cipher-port request (30_encoding.md rules R98 to R100, 44_host.md rule R200). The hardware has no other
flags (10_state.md rule R39). -/

namespace Sys2Proof.Machine

/-- The code of `ST` (10_state.md rule R34). -/
def Seq.bits : Seq → BitVec 2
  | .idle => 0#2
  | .run => 1#2
  | .fin => 2#2
  | .done => 3#2

/-- The sequencer state of a code; all four codes are legal (10_state.md rule R41). -/
def Seq.ofBits (b : BitVec 2) : Seq :=
  match b.toNat with
  | 0 => .idle
  | 1 => .run
  | 2 => .fin
  | _ => .done

/-- The code of `RES` (10_state.md rule R39). -/
def Res.bits : Res → BitVec 2
  | .none => 0#2
  | .ok => 1#2
  | .invalidLength => 2#2
  | .authFailure => 3#2

/-- The result of a code; all four codes are legal (10_state.md rule R41). -/
def Res.ofBits (b : BitVec 2) : Res :=
  match b.toNat with
  | 0 => .none
  | 1 => .ok
  | 2 => .invalidLength
  | _ => .authFailure

/-- The bit of `DIR` (10_state.md rule R38). -/
def Dir.bit : Dir → BitVec 1
  | .wrap => 0#1
  | .unwrap => 1#1

/-- The direction of a bit. -/
def Dir.ofBit (b : BitVec 1) : Dir := if b = 0#1 then .wrap else .unwrap

/-- `STATUS[11:0] = OLEN ∥ RES ∥ ST` (30_encoding.md rule R98). -/
def Regs.status (e : Regs) : BitVec 12 := e.olen ++ e.res.bits ++ e.st.bits

/-- `cmd_ready = (ST == IDLE)` (44_host.md rule R200). -/
def Regs.cmdReady (e : Regs) : Bool := decide (e.st = .idle)

/-- `done = (ST == DONE)` (44_host.md rule R200). -/
def Regs.doneLevel (e : Regs) : Bool := decide (e.st = .done)

/-- `SEL[2:0] = ST ∥ DIR` (30_encoding.md rule R100). -/
def Regs.sel (e : Regs) : BitVec 3 := e.st.bits ++ e.dir.bit

/-- What a READ returns (44_host.md rule R203). -/
def Regs.readout (e : Regs) : Readout := { status := e.status, dout := e.dout }

/-- The code of `OP` (30_encoding.md rule R99). -/
def PortOp.bit : PortOp → BitVec 1
  | .enc => 0#1
  | .dec => 1#1

/-- The 256-bit field `KEY = KEKR[0] ∥ .. ∥ KEKR[31]` of a request (30_encoding.md rule R99). -/
def PortRequest.keyField (q : PortRequest) : BitVec 256 := memRead q.key.toList 0 32

/-- The KEK a request names: the first `KLEN` bytes of `KEY` (30_encoding.md rule R99). -/
def PortRequest.kek (q : PortRequest) : Kek := { klen := q.klen.toNat, kb := q.key.toList.take q.klen.toNat }

end Sys2Proof.Machine
end

