-- ==== Sys2Proof/Machine/Ops.lean ====
section
/-! DEFINITION. The operations the instructions share: loading a call, the cipher port, moving the round position,
delivering a result, raising an error and releasing the engine (60_exceptions.md rules R225, R226 and R230), and
whose turn the next step is. -/

namespace Sys2Proof.Machine

/-- The machine with other registers; everything outside the engine as it was. -/
def State.setRegs (s : State) (e : Regs) : State := { s with regs := e }

/-- The machine with other turns to come. -/
def State.setInputs (s : State) (l : List Input) : State := { s with inputs := l }

/-- A request leaves on the cipher port (41_blockcipher_port.md rule R140). -/
def State.logRequest (s : State) (q : PortRequest) : State := { s with requests := s.requests ++ [q] }

/-- A sample reaches the host (44_host.md rule R203). -/
def State.logRead (s : State) (x : Readout) : State := { s with reads := s.reads ++ [x] }

/-- What a valid START latches: the working registers of the call, and `ST <- RUN`; `RES`, `OLEN` and `DOUT` stay
(42_wrap.md rule R161, 43_unwrap.md rule R181). -/
def Regs.load (e : Regs) (dir : Dir) (klen : Nat) (kekbuf : Vector Byte 32) (a : Semiblock) (semis : List Semiblock)
    (j : BitVec 3) (i : BitVec 2) : Regs :=
  { e with
    a := a, r := registerFile semis, n := BitVec.ofNat 3 (klen / 8), j := j, i := i, dir := dir, st := .run,
    klenr := BitVec.ofNat 8 klen, kekr := latchedKek klen kekbuf }

/-- The clearing of the working registers at the end of a call (42_wrap.md rule R165, 43_unwrap.md rule R186). -/
def Regs.clearWorking (e : Regs) : Regs :=
  { e with
    a := 0#64, r := Vector.replicate 4 0#64, n := 0#3, j := 0#3, i := 0#2, dir := .wrap,
    klenr := 0#8, kekr := Vector.replicate 32 0#8 }

/-- Moving on after a round step: to the next position, or to `ST = FIN` with the position kept after the last
(10_state.md rule R36). -/
def Regs.advance (e : Regs) : Option (BitVec 3 × BitVec 2) → Regs
  | some p => { e with j := p.1, i := p.2 }
  | none => { e with st := .fin }

/-- The answer of the cipher behind the port to a request (41_blockcipher_port.md rules R140 to R142 and R145;
assumption log 8). -/
def portAnswer (bc : BlockCipher) (q : PortRequest) : Block :=
  match q.op with
  | .enc => bc.enc q.kek q.blk
  | .dec => bc.dec q.kek q.blk

/-- A request of the running call: the latched KEK and the block (30_encoding.md rule R99, 41_blockcipher_port.md
rule R146). -/
def Regs.request (e : Regs) (op : PortOp) (blk : Block) : PortRequest :=
  { op := op, klen := e.klenr, key := e.kekr, blk := blk }

/-- `MemWrite(DOUT, off, 8, S)` for one semiblock after another. -/
def writeSemis (d : Vector Byte 40) (off : Nat) : List Semiblock → Vector Byte 40
  | [] => d
  | s :: rest => writeSemis (memWrite d off Config.semiBytes s) (off + Config.semiBytes) rest

/-- `DOUT[k] <- 0` from an offset up. -/
def clearFrom (d : Vector Byte 40) (off : Nat) : Vector Byte 40 :=
  Vector.ofFn fun p => if p.val < off then d[p] else 0#8

/-- Delivering a result: the semiblocks to `DOUT`, zero above, `OLEN`, `RES <- OK`, `ST <- DONE`, and the working
registers cleared (42_wrap.md rule R165, 43_unwrap.md rule R186). -/
def Regs.deliver (e : Regs) (semis : List Semiblock) : Regs :=
  { e.clearWorking with
    dout := clearFrom (writeSemis e.dout 0 semis) (Config.semiBytes * semis.length)
    olen := BitVec.ofNat 8 (Config.semiBytes * semis.length), res := .ok, st := .done }

/-- Taking an exception: the end of a call with one of the two error kinds (60_exceptions.md rules R225 and R226).
No state is saved and control goes nowhere: the engine waits in DONE. -/
def Regs.raise (e : Regs) : ErrorKind → Regs
  | .invalidLength => { e with res := .invalidLength, st := .done }
  | .authenticationFailure => { e.clearWorking with res := .authFailure, st := .done }

/-- The return, from success and from both errors alike (60_exceptions.md rule R230, 44_host.md rule R202). -/
def Regs.release (e : Regs) : Regs :=
  { e with dout := Vector.replicate 40 0#8, olen := 0#8, res := .none, st := .idle }

/-- Whose turn the next step is and what selects its instruction: the first of the turns to come; with none to come,
and on the engine's own turn, the step selector decoded from the registers (30_encoding.md rule R100; assumption
log 2). -/
def nextStimulus (s : State) : Stimulus :=
  match s.inputs with
  | .command hc pay :: _ => .command hc pay
  | .readPort :: _ => .readPort
  | .resetLine :: _ => .resetLine
  | .engineTurn :: _ => .selector s.regs.sel
  | [] => .selector s.regs.sel

/-- The turn is taken. -/
def takeTurn (s : State) : State := s.setInputs s.inputs.tail

/-- A machine whose next step reads the given encoded object. A command, the read port and the reset input come
first among the turns; a selector is the value of `ST ∥ DIR`, so those two registers take it and the engine's turn
comes first (assumption log 4). -/
def presentStimulus (s : State) : Stimulus → State
  | .command hc pay => s.setInputs (.command hc pay :: s.inputs)
  | .readPort => s.setInputs (.readPort :: s.inputs)
  | .resetLine => s.setInputs (.resetLine :: s.inputs)
  | .selector sel =>
    (s.setRegs { s.regs with st := Seq.ofBits (sel.extractLsb' 1 2), dir := Dir.ofBit (sel.extractLsb' 0 1) }).setInputs
      (.engineTurn :: s.inputs)

end Sys2Proof.Machine
end

