-- ==== Sys2Proof/Machine/HostPort.lean ====
section
/-! DEFINITION. ACK, READ and the reset input (44_host.md, 70_reset_and_hazards.md). -/

namespace Sys2Proof.Machine

/-- `ACK`, enabled in DONE (44_host.md rule R202); elsewhere the word is not transferred and nothing changes (rule
R201). Bits 16:0 of its word are ignored. -/
def execAck (_ignored : BitVec 17) (s : State) : Host.Outcome State Fault Refusal :=
  if s.regs.doneLevel then .next (s.setRegs s.regs.release) else .next s

/-- `READ`: the host gets `STATUS` and `DOUT`; no register changes (44_host.md rule R203). -/
def execRead (s : State) : Host.Outcome State Fault Refusal := .next (s.logRead s.regs.readout)

/-- `RESET`: every register takes its reset value, in every state (70_reset_and_hazards.md rules R250 and R251). -/
def execReset (s : State) : Host.Outcome State Fault Refusal := .next (s.setRegs Regs.reset)

end Sys2Proof.Machine
end

