-- ==== Sys2Proof/Machine/Unwrap.lean ====
section
/-! DEFINITION. The inverse engine: START.U, USTEP, UFIN with the authentication check (43_unwrap.md). -/

namespace Sys2Proof.Machine

/-- The registers after a START.U that is transferred: the valid case of 43_unwrap.md rule R181, the invalid case of
rule R182. -/
def Regs.startUnwrap (e : Regs) (klen dlen : Nat) (pay : Payload) : Regs :=
  if valid .unwrap klen dlen then
    let n := klen / 8
    let semis := split (pay.din.toList.take dlen) (n + 1)
    e.load .unwrap klen pay.kekbuf (semis.headD 0#64) semis.tail 5#3 (BitVec.ofNat 2 (n - 1))
  else e.raise .invalidLength

/-- `START.U`, enabled in IDLE (43_unwrap.md rules R181 and R182); elsewhere the word is not transferred and nothing
changes (44_host.md rule R201). -/
def execStartU (klen dlen : Nat) (pay : Payload) (s : State) : Host.Outcome State Fault Refusal :=
  if s.regs.cmdReady then .next (s.setRegs (s.regs.startUnwrap klen dlen pay)) else .next s

/-- The one DEC request of a USTEP, for the block `CAT(XORCTR(A, t), R[I])` (43_unwrap.md rule R183). -/
def Regs.unwrapRequest (e : Regs) : PortRequest := e.request .dec (cat (xorCtr e.a e.counter) (e.readR e.i))

/-- The registers after a USTEP with the answer B of the cipher (43_unwrap.md rule R183). -/
def Regs.unwrapRound (bc : BlockCipher) (e : Regs) : Regs :=
  let b := portAnswer bc e.unwrapRequest
  ({ e.writeR e.i (lo b) with a := hi b }).advance (nextUnwrap e.n e.j e.i)

/-- `USTEP`, enabled when `ST = RUN` and `DIR = 1` (43_unwrap.md rule R183); not enabled, it does nothing
(assumption log 5). -/
def execUstep (s : State) : Host.Outcome State Fault Refusal :=
  if s.regs.st = .run ∧ s.regs.dir = .unwrap then
    .next ((s.logRequest s.regs.unwrapRequest).setRegs (s.regs.unwrapRound Config.blockCipher))
  else .next s

/-- The registers after a UFIN: `R[0..N-1]` delivered if all 64 bits of `A` equal `IV`, else AuthenticationFailure
(43_unwrap.md rule R186). -/
def Regs.unwrapFinish (e : Regs) : Regs :=
  if e.a = Config.iv then e.deliver (e.r.toList.take e.n.toNat) else e.raise .authenticationFailure

/-- `UFIN`, enabled when `ST = FIN` and `DIR = 1` (43_unwrap.md rule R186); not enabled, it does nothing
(assumption log 5). -/
def execUfin (s : State) : Host.Outcome State Fault Refusal :=
  if s.regs.st = .fin ∧ s.regs.dir = .unwrap then .next (s.setRegs s.regs.unwrapFinish) else .next s

end Sys2Proof.Machine
end

