-- ==== Sys2Proof/Machine/Wrap.lean ====
section
/-! DEFINITION. The forward engine: START.W, WSTEP, WFIN (42_wrap.md). -/

namespace Sys2Proof.Machine

/-- The registers after a START.W that is transferred: the valid case of 42_wrap.md rule R161, the invalid case of
rule R162. -/
def Regs.startWrap (e : Regs) (klen dlen : Nat) (pay : Payload) : Regs :=
  if valid .wrap klen dlen then
    e.load .wrap klen pay.kekbuf Config.iv (split (pay.din.toList.take dlen) (klen / 8)) 0#3 0#2
  else e.raise .invalidLength

/-- `START.W`, enabled in IDLE (42_wrap.md rules R161 and R162); elsewhere the word is not transferred and nothing
changes (44_host.md rule R201). -/
def execStartW (klen dlen : Nat) (pay : Payload) (s : State) : Host.Outcome State Fault Refusal :=
  if s.regs.cmdReady then .next (s.setRegs (s.regs.startWrap klen dlen pay)) else .next s

/-- The one ENC request of a WSTEP, for the block `CAT(A, R[I])` (42_wrap.md rule R163). -/
def Regs.wrapRequest (e : Regs) : PortRequest := e.request .enc (cat e.a (e.readR e.i))

/-- The registers after a WSTEP with the answer B of the cipher (42_wrap.md rule R163). -/
def Regs.wrapRound (bc : BlockCipher) (e : Regs) : Regs :=
  let b := portAnswer bc e.wrapRequest
  ({ e.writeR e.i (lo b) with a := xorCtr (hi b) e.counter }).advance (nextWrap e.n e.j e.i)

/-- `WSTEP`, enabled when `ST = RUN` and `DIR = 0` (42_wrap.md rule R163); not enabled, it does nothing
(assumption log 5). -/
def execWstep (s : State) : Host.Outcome State Fault Refusal :=
  if s.regs.st = .run ∧ s.regs.dir = .wrap then
    .next ((s.logRequest s.regs.wrapRequest).setRegs (s.regs.wrapRound Config.blockCipher))
  else .next s

/-- The registers after a WFIN: `A` and `R[0..N-1]` delivered (42_wrap.md rule R165). -/
def Regs.wrapFinish (e : Regs) : Regs := e.deliver (e.a :: e.r.toList.take e.n.toNat)

/-- `WFIN`, enabled when `ST = FIN` and `DIR = 0` (42_wrap.md rule R165); not enabled, it does nothing
(assumption log 5). -/
def execWfin (s : State) : Host.Outcome State Fault Refusal :=
  if s.regs.st = .fin ∧ s.regs.dir = .wrap then .next (s.setRegs s.regs.wrapFinish) else .next s

end Sys2Proof.Machine
end

