-- ==== Sys2Proof/Machine/Dispatch.lean ====
section
/-! DEFINITION. One arm per instruction. -/

namespace Sys2Proof.Machine

def exec (i : Instr) (s : State) : Host.Outcome State Fault Refusal :=
  match i with
  | .startW klen dlen pay => Sys2Proof.Machine.execStartW klen dlen pay s
  | .startU klen dlen pay => Sys2Proof.Machine.execStartU klen dlen pay s
  | .ack ignored => Sys2Proof.Machine.execAck ignored s
  | .wstep => Sys2Proof.Machine.execWstep s
  | .ustep => Sys2Proof.Machine.execUstep s
  | .wfin => Sys2Proof.Machine.execWfin s
  | .ufin => Sys2Proof.Machine.execUfin s
  | .read => Sys2Proof.Machine.execRead s
  | .reset => Sys2Proof.Machine.execReset s

end Sys2Proof.Machine
end

