-- ==== Sys2Proof/Machine/Step.lean ====
section
/-! DEFINITION. One step of the machine: the turn is taken, and its agent's instruction runs (00_scope.md rule R19).
Where the engine has no enabled step it waits (30_encoding.md rule R100). -/

namespace Sys2Proof.Machine

/-- One step: what selects it is read before the turn is taken off the list. -/
def step (s : State) : Host.Outcome State Fault Refusal :=
  match decode (nextStimulus s) with
  | .ok i => exec i (takeTurn s)
  | .error _ => .next (takeTurn s)

/-- The machine whose next step reads the given table word (assumption log 4). -/
def State.withFetchWord (s : State) (nbits w : Nat) : State :=
  match tableStimulus nbits w with
  | none => s
  | some x => presentStimulus s x

end Sys2Proof.Machine
end

