-- ==== Sys2Proof/Machine/Engine.lean ====
section
/-! DEFINITION. The engine agent alone, for any cipher behind the port: the register effect of the engine step that
is enabled, and a call as the engine takes it (42_wrap.md rules R160 and R167, 43_unwrap.md rules R180 and R188). -/

namespace Sys2Proof.Machine

/-- The registers after the engine's turn: the one enabled step, or nothing where the engine waits (30_encoding.md
rule R100). -/
def engineRegs (bc : BlockCipher) (e : Regs) : Regs :=
  match e.st, e.dir with
  | .run, .wrap => e.wrapRound bc
  | .run, .unwrap => e.unwrapRound bc
  | .fin, .wrap => e.wrapFinish
  | .fin, .unwrap => e.unwrapFinish
  | .idle, _ => e
  | .done, _ => e

/-- k turns of the engine. -/
def engineRun (bc : BlockCipher) : Nat → Regs → Regs
  | 0, e => e
  | k + 1, e => engineRun bc k (engineRegs bc e)

/-- The registers after a START of either direction that is transferred. -/
def Regs.start (e : Regs) (dir : Dir) (klen dlen : Nat) (pay : Payload) : Regs :=
  match dir with
  | .wrap => e.startWrap klen dlen pay
  | .unwrap => e.startUnwrap klen dlen pay

/-- How many engine steps a call takes after its START: 6n round steps and one finishing step, none for an invalid
START (70_reset_and_hazards.md rule R262). -/
def callTurns (dir : Dir) (klen dlen : Nat) : Nat :=
  if valid dir klen dlen then Config.rounds * (klen / 8) + 1 else 0

end Sys2Proof.Machine
end

