-- ==== Sys2Proof/Machine/Functions.lean ====
section
/-! DEFINITION. The function level: `WRAPF` and `UNWRAPF` (42_wrap.md rule R166, 43_unwrap.md rule R187), and DOC's
`wrap` and `unwrap` with their validation. They are written from the rules beside the engine, not from it; that the
two levels agree is a statement. -/

namespace Sys2Proof.Machine

/-- The variables of the two loops: `A` and the list `R`. -/
structure Work where
  a : Semiblock
  r : List Semiblock
deriving DecidableEq, Repr

/-- The positions of a wrap in order: j ascending 0 to 5, i ascending 0 to n-1 in each round. -/
def wrapPositions (n : Nat) : List (Nat × Nat) :=
  (List.range Config.rounds).flatMap fun j => (List.range n).map fun i => (j, i)

/-- The positions of an unwrap in order: j descending 5 to 0, i descending n-1 to 0 in each round. -/
def unwrapPositions (n : Nat) : List (Nat × Nat) :=
  (List.range Config.rounds).reverse.flatMap fun j => (List.range n).reverse.map fun i => (j, i)

/-- One pass of the loop body of `WRAPF` at position (j, i). -/
def wrapPass (enc : Kek → Block → Block) (kek : Kek) (n : Nat) (w : Work) (p : Nat × Nat) : Work :=
  let b := enc kek (cat w.a (w.r.getD p.2 0#64))
  { a := xorCtr (hi b) (ctr n p.1 p.2), r := w.r.set p.2 (lo b) }

/-- One pass of the loop body of `UNWRAPF` at position (j, i). -/
def unwrapPass (dec : Kek → Block → Block) (kek : Kek) (n : Nat) (w : Work) (p : Nat × Nat) : Work :=
  let b := dec kek (cat (xorCtr w.a (ctr n p.1 p.2)) (w.r.getD p.2 0#64))
  { a := hi b, r := w.r.set p.2 (lo b) }

/-- `WRAPF(ENC, kek, key)` (42_wrap.md rule R166). -/
def wrapF (enc : Kek → Block → Block) (kek : Kek) (key : List Byte) : List Byte :=
  let n := kek.klen / 8
  let w := (wrapPositions n).foldl (wrapPass enc kek n) { a := Config.iv, r := split key n }
  join (w.a :: w.r)

/-- The loops of `UNWRAPF` (43_unwrap.md rule R187), before its check. -/
def unwrapLoops (dec : Kek → Block → Block) (kek : Kek) (w : List Byte) : Work :=
  let n := kek.klen / 8
  let semis := split w (n + 1)
  (unwrapPositions n).foldl (unwrapPass dec kek n) { a := semis.headD 0#64, r := semis.tail }

/-- `UNWRAPF(DEC, kek, w)`: the key, or none for AuthenticationFailure (43_unwrap.md rule R187). -/
def unwrapF (dec : Kek → Block → Block) (kek : Kek) (w : List Byte) : Option (List Byte) :=
  let u := unwrapLoops dec kek w
  if u.a = Config.iv then some (join u.r) else none

/-- What a call gives its caller: bytes, or one of the two error kinds (60_exceptions.md rule R220). -/
inductive CallResult
  | ok (bytes : List Byte)
  | error (kind : ErrorKind)
deriving DecidableEq, Repr

/-- DOC's `wrap(key, kek)` (42_wrap.md, DOC section 4.1): validation, then `WRAPF`. -/
def docWrap (bc : BlockCipher) (key kek : List Byte) : CallResult :=
  if valid .wrap kek.length key.length then .ok (wrapF bc.enc { klen := kek.length, kb := kek } key)
  else .error .invalidLength

/-- DOC's `unwrap(wrappedKey, kek)` (43_unwrap.md, DOC section 4.2): validation, then `UNWRAPF`. -/
def docUnwrap (bc : BlockCipher) (wrapped kek : List Byte) : CallResult :=
  if valid .unwrap kek.length wrapped.length then
    match unwrapF bc.dec { klen := kek.length, kb := kek } wrapped with
    | some key => .ok key
    | none => .error .authenticationFailure
  else .error .invalidLength

/-- DOC's function of a direction. -/
def docCall (bc : BlockCipher) (dir : Dir) (data kek : List Byte) : CallResult :=
  match dir with
  | .wrap => docWrap bc data kek
  | .unwrap => docUnwrap bc data kek

end Sys2Proof.Machine
end

