-- ==== Sys2Proof/Machine/Driver.lean ====
section
/-! DEFINITION. The API as a macro over the commands (44_host.md rule R208, 30_encoding.md rule R107): the host's driver
that runs it on the machine, and the turns of a call that nothing disturbs. -/

namespace Sys2Proof.Machine

/-- The arguments of an API call: `wrap(data, kek)` or `unwrap(data, kek)`; and the bytes that stand in the payload
beyond `data` and `kek`, any bytes at all (93_implementation_defined.md U10; assumption log 17). -/
structure ApiCall where
  dir  : Dir
  data : List Byte
  kek  : List Byte
  rest : Payload
deriving DecidableEq, Repr

/-- The payload buffers with the bytes that fit them: "only the first min(len,32) bytes of kek and min(len,40) bytes
of key fit the payload" (44_host.md rule R208). Beyond the caller's bytes stand those of `rest`. -/
def payloadOf (rest : Payload) (data kek : List Byte) : Payload :=
  { kekbuf := Vector.ofFn fun k => kek.getD k.val rest.kekbuf[k]
    din := Vector.ofFn fun k => data.getD k.val rest.din[k] }

/-- The START of a call with its operands. -/
def ApiCall.start (c : ApiCall) : Instr :=
  match c.dir with
  | .wrap => .startW c.kek.length c.data.length (payloadOf c.rest c.data c.kek)
  | .unwrap => .startU c.kek.length c.data.length (payloadOf c.rest c.data c.kek)

/-- `if len(kek) > 255 or len(key) > 255` (44_host.md rule R208): a length the command word cannot express
(00_scope.md rule R13). -/
def ApiCall.tooLong (c : ApiCall) : Bool := decide (255 < c.kek.length ∨ 255 < c.data.length)

/-- The host's case on `status.RES` (44_host.md rule R208); none for NONE, for which the macro has no case
(assumption log 18). -/
def Readout.result (x : Readout) : Option CallResult :=
  match Res.ofBits (x.status.extractLsb' 2 2) with
  | .none => none
  | .ok => some (.ok (x.dout.toList.take (x.status.extractLsb' 4 8).toNat))
  | .invalidLength => some (.error .invalidLength)
  | .authFailure => some (.error .authenticationFailure)

/-! ### The driver -/

/-- Where the macro stands. -/
inductive Phase
  /-- Before its first line. -/
  | entry
  /-- `wait until cmd_ready`. -/
  | waitReady
  /-- `wait until done`. -/
  | waitDone
  /-- The sample is taken; `ACK` comes next. -/
  | acknowledge (x : Readout)
  /-- The macro has returned. -/
  | returned (r : Option CallResult)
deriving DecidableEq, Repr

/-- The machine with the driver that uses it. -/
structure Session where
  machine : State
  phase   : Phase
deriving DecidableEq, Repr

/-- A step of the machine inside a session; the driver moves on as the machine after the step says. -/
def Session.andThen (o : Host.Outcome State Fault Refusal) (f : State → Phase) : Host.Outcome Session Fault Refusal :=
  match o with
  | .next t => .next { machine := t, phase := f t }
  | .fault r => .fault r
  | .refused r => .refused r

/-- The host issues an instruction of its own: it is the machine's next turn, and the turns to come stay. -/
def issue (s : State) (i : Instr) : Host.Outcome State Fault Refusal := step (presentStimulus s (encode i))

/-- The sample a READ has just returned. -/
def State.lastRead (s : State) : Readout := s.reads.getLastD s.regs.readout

/-- One step of the macro of 44_host.md rule R208 (assumption log 18). Where it waits, the machine takes its own next
turn; where the level it waits for is up, it issues its command; a call that is too long returns at once. -/
def driverStep (c : ApiCall) (s : Session) : Host.Outcome Session Fault Refusal :=
  match s.phase with
  | .entry =>
    if c.tooLong then .next { s with phase := .returned (some (.error .invalidLength)) }
    else .next { s with phase := .waitReady }
  | .waitReady =>
    if s.machine.regs.cmdReady then Session.andThen (issue s.machine c.start) fun _ => .waitDone
    else Session.andThen (step s.machine) fun _ => .waitReady
  | .waitDone =>
    if s.machine.regs.doneLevel then Session.andThen (issue s.machine .read) fun t => .acknowledge t.lastRead
    else Session.andThen (step s.machine) fun _ => .waitDone
  | .acknowledge x => Session.andThen (issue s.machine (.ack 0#17)) fun _ => .returned x.result
  | .returned _ => .next s

/-- The driver of a call with the machine behind it, as a machine of its own. -/
def driver (c : ApiCall) : Host.Core :=
  { State := Session, Fault := Fault, Refusal := Refusal, step := driverStep c,
    reset := { machine := State.reset, phase := .entry } }

/-! ### A call that nothing disturbs -/

/-- The turn on which a host or the environment issues an encoded object. -/
def turnOf : Stimulus → Input
  | .command hc pay => .command hc pay
  | .readPort => .readPort
  | .resetLine => .resetLine
  | .selector _ => .engineTurn

/-- The turns of one API call on an engine that is ready, written as a list: the START, as many of the engine's turns
as it takes until `done`, READ, ACK. None where the macro returns without issuing a command (00_scope.md rule R13;
assumption log 9). -/
def apiTurns (c : ApiCall) : Option (List Input) :=
  if c.tooLong then none
  else
    some ([turnOf (encode c.start)]
      ++ List.replicate (callTurns c.dir c.kek.length c.data.length) .engineTurn
      ++ [turnOf (encode .read), turnOf (encode (.ack 0#17))])

end Sys2Proof.Machine
end

