-- ==== Sys2Proof/Safety.lean ====
section
/-! DEFINITION. What holds in every state a run reaches: the invariants of 10_state.md rules R31, R36, R42 to R44
and R48 and of 60_exceptions.md rule R227, over the registers. -/

namespace Sys2Proof.Machine

/-- The working registers hold their reset values (10_state.md rule R48). -/
abbrev Regs.WorkingClear (e : Regs) : Prop := e = { Regs.reset with st := e.st, res := e.res, olen := e.olen, dout := e.dout }

/-- Nothing is in the output buffer (10_state.md rule R44). -/
abbrev Regs.NoOutput (e : Regs) : Prop := e.olen = 0#8 ∧ e.dout = Vector.replicate 40 0#8

/-- A call is in progress: `N` is 2, 3 or 4, `KLENR = 8·N`, the position is in range, `R[k] = 0` for k at or above
`N`, `KEKR[k] = 0` for k at or above `KLENR`, and no result is there (10_state.md rules R31 and R48,
92_eei_decisions.md D16). -/
abbrev Regs.InCall (e : Regs) : Prop :=
  (e.n = 2#3 ∨ e.n = 3#3 ∨ e.n = 4#3) ∧ e.klenr.toNat = 8 * e.n.toNat ∧ e.j.toNat ≤ 5 ∧ e.i.toNat < e.n.toNat ∧
  (∀ k : Fin 4, e.n.toNat ≤ k.val → e.r[k] = 0#64) ∧ (∀ k : Fin 32, e.klenr.toNat ≤ k.val → e.kekr[k] = 0#8) ∧
  e.res = .none ∧ e.NoOutput

/-- The last position of the direction: (5, N-1) or (0, 0) (10_state.md rules R36 and R48). -/
abbrev Regs.AtLast (e : Regs) : Prop :=
  match e.dir with
  | .wrap => e.j = 5#3 ∧ e.i.toNat + 1 = e.n.toNat
  | .unwrap => e.j = 0#3 ∧ e.i = 0#2

/-- The result is there: OK with 16, 24, 32 or 40 bytes and zero above them, or an error with no byte (10_state.md
rules R42 and R44, 60_exceptions.md rule R227). -/
abbrev Regs.Delivered (e : Regs) : Prop :=
  e.WorkingClear ∧
  ((e.res = .ok ∧ (e.olen = 16#8 ∨ e.olen = 24#8 ∨ e.olen = 32#8 ∨ e.olen = 40#8) ∧
      ∀ k : Fin 40, e.olen.toNat ≤ k.val → e.dout[k] = 0#8) ∨
   (e.res = .invalidLength ∧ e.NoOutput) ∨ (e.res = .authFailure ∧ e.NoOutput))

/-- The invariant of 10_state.md rule R48, case by sequencer state. -/
abbrev Regs.Inv (e : Regs) : Prop :=
  match e.st with
  | .idle => e = Regs.reset
  | .run => e.InCall
  | .fin => e.InCall ∧ e.AtLast
  | .done => e.Delivered

end Sys2Proof.Machine
end

