-- ==== Sys2Proof/Certificates/Slice0/Obligations.lean ====
section
/-! DEFINITION. The statements about KWCORE, each with the rule of spec/ it formalises. -/

open Sys2Proof Sys2Proof.Machine

/-! ### Encodings -/

/-- Decoding what the encoder writes gives back every well-formed instruction, with every operand at every value its
fields admit (30_encoding.md rules R91 to R95 and R100). -/
def Obligations.DecodeOfEncodeIsTheInstruction : Prop :=
  ∀ i : Instr, i.wf = true → decode (encode i) = .ok i

/-- 30_encoding.md rule R103: every 18-bit word decodes, bit 17 set to ACK whatever the other bits, bit 17 clear to
the START of the direction in bit 16 with both lengths as they stand; and the decoded instruction is well formed and
its word is the word that was decoded, so no two words share a reading. -/
def Obligations.EveryCommandWordDecodes : Prop :=
  ∀ (hc : BitVec 18) (pay : Payload),
    (hc.getLsbD 17 = true → decode (.command hc pay) = .ok (.ack (hc.extractLsb' 0 17))) ∧
    (hc.getLsbD 17 = false → hc.getLsbD 16 = false →
      decode (.command hc pay) = .ok (.startW (hc.extractLsb' 8 8).toNat (hc.extractLsb' 0 8).toNat pay)) ∧
    (hc.getLsbD 17 = false → hc.getLsbD 16 = true →
      decode (.command hc pay) = .ok (.startU (hc.extractLsb' 8 8).toNat (hc.extractLsb' 0 8).toNat pay)) ∧
    ∃ i p, decode (.command hc pay) = .ok i ∧ i.wf = true ∧ encode i = .command hc p

/-- 30_encoding.md rule R100: the engine step that `SEL = ST ∥ DIR` enables, for every value of `ST` and `DIR`; and
that `DIR` is 0 in the states with none. -/
def Obligations.SelectorNamesTheEnabledStep : Prop :=
  ∀ e : Regs,
    e.sel = e.st.bits ++ e.dir.bit ∧
    (e.st = .run → e.dir = .wrap → e.sel = 0b010#3 ∧ decode (.selector e.sel) = .ok .wstep) ∧
    (e.st = .run → e.dir = .unwrap → e.sel = 0b011#3 ∧ decode (.selector e.sel) = .ok .ustep) ∧
    (e.st = .fin → e.dir = .wrap → e.sel = 0b100#3 ∧ decode (.selector e.sel) = .ok .wfin) ∧
    (e.st = .fin → e.dir = .unwrap → e.sel = 0b101#3 ∧ decode (.selector e.sel) = .ok .ufin) ∧
    (e.st = .idle → decode (.selector e.sel) = .error .waitsForStart) ∧
    (e.st = .done → decode (.selector e.sel) = .error .waitsForAck) ∧
    (e.Inv → e.st = .idle ∨ e.st = .done → e.dir = .wrap)

/-- Words of 30_encoding.md rules R92 to R94, R97 and R100 and of 95_test_vectors.md section 7.4, written out. -/
def Obligations.WordsOfTheSpecDecode : Prop :=
  ∀ pay : Payload,
    decode (.command 0b000001000000010000#18 pay) = .ok (.startW 16 16 pay) ∧
    decode (.command 0b010001100000100000#18 pay) = .ok (.startU 24 32 pay) ∧
    decode (.command 0b011111111100000111#18 pay) = .ok (.startU 255 7 pay) ∧
    decode (.command 0b100000000000000000#18 pay) = .ok (.ack 0#17) ∧
    decode (.selector 0b010#3) = .ok .wstep ∧ decode (.selector 0b011#3) = .ok .ustep ∧
    decode (.selector 0b100#3) = .ok .wfin ∧ decode (.selector 0b101#3) = .ok .ufin ∧
    decode .readPort = .ok .read ∧ decode .resetLine = .ok .reset

/-- 30_encoding.md rule R97: the predicate `VALID`, in naturals, and the six START words that satisfy it, with
their n. -/
def Obligations.ExactlySixCommandWordsAreValid : Prop :=
  (∀ (dir : Dir) (klen dlen : Nat),
    valid dir klen dlen = true ↔
      (klen = 16 ∨ klen = 24 ∨ klen = 32) ∧ dlen = klen + 8 * (match dir with | .wrap => 0 | .unwrap => 1)) ∧
  (∀ hc : BitVec 18, hc.getLsbD 17 = false →
    (valid (if hc.getLsbD 16 then .unwrap else .wrap) (hcKlen hc) (hcDlen hc) = true ↔
      hc ∈ [0x01010#18, 0x01818#18, 0x02020#18, 0x11018#18, 0x11820#18, 0x12028#18])) ∧
  [0x01010#18, 0x01818#18, 0x02020#18, 0x11018#18, 0x11820#18, 0x12028#18].map (fun hc => hcKlen hc / 8) =
    [2, 3, 4, 2, 3, 4]

/-- The fields of the status word and the two levels (30_encoding.md rule R98, 44_host.md rule R200), and the values
`STATUS` takes in the states of the invariant, after a wrap and after an unwrap. -/
def Obligations.StatusWordOfEveryState : Prop :=
  ∀ e : Regs,
    (e.status.extractLsb' 0 2 = e.st.bits ∧ e.status.extractLsb' 2 2 = e.res.bits ∧ e.status.extractLsb' 4 8 = e.olen) ∧
    (e.cmdReady = true ↔ e.st = .idle) ∧ (e.doneLevel = true ↔ e.st = .done) ∧
    (e.Inv →
      (e.st = .idle → e.status = 0x000#12) ∧ (e.st = .run → e.status = 0x001#12) ∧
      (e.st = .fin → e.status = 0x002#12) ∧
      (e.st = .done → e.res = .invalidLength → e.status = 0x00B#12) ∧
      (e.st = .done → e.res = .authFailure → e.status = 0x00F#12) ∧
      (e.st = .done → e.res = .ok → e.status ∈ [0x107#12, 0x187#12, 0x207#12, 0x287#12]) ∧
      (e.st = .done → e.res ≠ .none) ∧
      (e.st = .fin → e.dir = .wrap → e.wrapFinish.status ∈ [0x187#12, 0x207#12, 0x287#12]) ∧
      (e.st = .fin → e.dir = .unwrap → e.a = Config.iv → e.unwrapFinish.status ∈ [0x107#12, 0x187#12, 0x207#12]))

/-- The fields of a cipher-port request (30_encoding.md rule R99): the operation, `KLENR`, the 32 latched bytes in
order in the 256-bit key field, and the block; the KEK it names is the latched one, and the answer is the cipher's
for them; in a call it is one that 00_scope.md rule R17 admits and the key field is zero beyond it. -/
def Obligations.RequestCarriesTheLatchedKek : Prop :=
  ∀ (bc : BlockCipher) (e : Regs) (op : PortOp) (blk : Block),
    PortOp.enc.bit = 0#1 ∧ PortOp.dec.bit = 1#1 ∧
    (e.request op blk).op = op ∧ (e.request op blk).klen = e.klenr ∧ (e.request op blk).blk = blk ∧
    (∀ k : Fin 32, (e.request op blk).keyField.extractLsb' (8 * (31 - k.val)) 8 = e.kekr[k]) ∧
    (e.request op blk).kek = e.kek ∧
    portAnswer bc (e.request .enc blk) = bc.enc e.kek blk ∧ portAnswer bc (e.request .dec blk) = bc.dec e.kek blk ∧
    (e.InCall →
      (e.klenr = 16#8 ∨ e.klenr = 24#8 ∨ e.klenr = 32#8) ∧ e.kek.kb.length = e.kek.klen ∧ e.kek.wf = true ∧
      ∀ k : Fin 32, e.klenr.toNat ≤ k.val → (e.request op blk).keyField.extractLsb' (8 * (31 - k.val)) 8 = 0#8)

/-! ### The semiblock pipeline and the buffers -/

/-- 40_semiblock.md rules R120 and R121: byte b of `S_k` is `buf[8k + b]`; bytes 8k..8k+7 of a join are those of
`S_k`; join and split are inverse to each other, for every number of semiblocks; a valid START splits a buffer whose
length is a multiple of 8, into n semiblocks for a wrap and n + 1 for an unwrap. -/
def Obligations.SplitAndJoinAreInverse : Prop :=
  (∀ (buf : List Byte) (m : Nat), buf.length = 8 * m →
    (split buf m).length = m ∧ join (split buf m) = buf ∧
    ∀ k b, k < m → b < 8 → semiByte ((split buf m).getD k 0#64) b = buf.getD (8 * k + b) 0#8) ∧
  (∀ l : List Semiblock,
    (join l).length = 8 * l.length ∧ split (join l) l.length = l ∧
    ∀ k b, k < l.length → b < 8 → (join l).getD (8 * k + b) 0#8 = semiByte (l.getD k 0#64) b) ∧
  (∀ (dir : Dir) (klen dlen : Nat) (pay : Payload), valid dir klen dlen = true →
    ∃ m, 2 ≤ m ∧ m ≤ 5 ∧ m = klen / 8 + dir.num ∧ (pay.din.toList.take dlen).length = 8 * m)

/-- 40_semiblock.md rule R122: `CAT`, `HI` and `LO`, by bytes and by their laws. -/
def Obligations.BlockHalvesAreItsSemiblocks : Prop :=
  (∀ a b : Semiblock, hi (cat a b) = a ∧ lo (cat a b) = b ∧
    ∀ k, k < 8 → blockByte (cat a b) k = semiByte a k ∧ blockByte (cat a b) (8 + k) = semiByte b k) ∧
  (∀ x : Block, cat (hi x) (lo x) = x ∧
    ∀ k, k < 8 → semiByte (hi x) k = blockByte x k ∧ semiByte (lo x) k = blockByte x (8 + k))

/-- 40_semiblock.md rules R124 and R125: `CTR = s + 1` for the step index `s = n·j + i`; over the positions of a call
it takes each of 1..6n exactly once, ascending in a wrap and descending in an unwrap. -/
def Obligations.CounterRunsThroughEachValueOnce : Prop :=
  (∀ n j i : Nat, ctr n j i = (n * j + i) + 1) ∧
  (∀ n j i : Nat, j ≤ 5 → i < n → 1 ≤ ctr n j i ∧ ctr n j i ≤ 6 * n) ∧
  (∀ n j i j' i' : Nat, i < n → i' < n → ctr n j i = ctr n j' i' → j = j' ∧ i = i') ∧
  (∀ n t : Nat, 1 ≤ t → t ≤ 6 * n → ∃ j i, j ≤ 5 ∧ i < n ∧ ctr n j i = t) ∧
  (∀ n : Nat, (wrapPositions n).map (fun p => ctr n p.1 p.2) = List.range' 1 (6 * n)) ∧
  (∀ n : Nat, (unwrapPositions n).map (fun p => ctr n p.1 p.2) = (List.range' 1 (6 * n)).reverse)

/-- 40_semiblock.md rule R126: byte k of `BE64(t)` is `(t >> (8·(7-k))) mod 256`, `BE64(t)` is the number t, and for
the counters of this hardware bytes 0..6 are zero and byte 7 is t. -/
def Obligations.CounterIsEncodedBigEndian : Prop :=
  ∀ t : Nat, t < 2 ^ 64 →
    (be64 t).toNat = t ∧
    (∀ k, k < 8 → (semiByte (be64 t) k).toNat = (t >>> (8 * (7 - k))) % 256) ∧
    (1 ≤ t → t ≤ 24 → (∀ k, k < 7 → semiByte (be64 t) k = 0#8) ∧ (semiByte (be64 t) 7).toNat = t)

/-- 40_semiblock.md rule R127: `XORCTR` byte by byte; for each t an involution; injective in t; with the counters of
this hardware only byte 7 changes. -/
def Obligations.XorWithCounterLaws : Prop :=
  (∀ (s : Semiblock) (t : Nat), xorCtr s t = s ^^^ be64 t ∧ xorCtr (xorCtr s t) t = s ∧
    ∀ k, k < 8 → semiByte (xorCtr s t) k = semiByte s k ^^^ semiByte (be64 t) k) ∧
  (∀ (s : Semiblock) (t u : Nat), t < 2 ^ 64 → u < 2 ^ 64 → xorCtr s t = xorCtr s u → t = u) ∧
  (∀ (s : Semiblock) (t k : Nat), t ≤ 24 → k < 7 → semiByte (xorCtr s t) k = semiByte s k)

/-- 20_memory.md rules R62 and R63: within a buffer, a read takes the bytes with the lowest offset most significant; a write puts the
most significant byte at the lowest offset and changes no other byte; a read of what was written gives it back. -/
def Obligations.BufferReadsAndWrites : Prop :=
  (∀ (buf : List Byte) (off m k : Nat), off + m ≤ buf.length → k < m →
    (memRead buf off m).extractLsb' (8 * (m - 1 - k)) 8 = buf.getD (off + k) 0#8) ∧
  (∀ (d : Vector Byte 40) (off m : Nat) (v : BitVec (8 * m)), off + m ≤ 40 →
    (∀ p : Fin 40, off ≤ p.val → p.val < off + m →
      (memWrite d off m v)[p] = v.extractLsb' (8 * (m - 1 - (p.val - off))) 8) ∧
    (∀ p : Fin 40, (p.val < off ∨ off + m ≤ p.val) → (memWrite d off m v)[p] = d[p]) ∧
    memRead (memWrite d off m v).toList off m = v)

/-! ### Commands and engine steps, each with its whole effect and its frame -/

/-- 42_wrap.md rule R161: the valid START.W, with every register it writes and everything it leaves alone. -/
def Obligations.ValidStartWLoadsAWrapCall : Prop :=
  ∀ (s : State) (klen dlen : Nat) (pay : Payload),
    s.regs.st = .idle → (klen = 16 ∨ klen = 24 ∨ klen = 32) → dlen = klen →
    ∃ t, exec (.startW klen dlen pay) s = .next t ∧
      t.regs.a = 0xA6A6A6A6A6A6A6A6#64 ∧
      (∀ k : Fin 4, k.val < klen / 8 →
        ∀ b : Fin 8, semiByte t.regs.r[k] b.val = pay.din.toList.getD (8 * k.val + b.val) 0#8) ∧
      (∀ k : Fin 4, klen / 8 ≤ k.val → t.regs.r[k] = 0#64) ∧
      t.regs.n.toNat = klen / 8 ∧ t.regs.dir = .wrap ∧ t.regs.j = 0#3 ∧ t.regs.i = 0#2 ∧
      t.regs.klenr.toNat = klen ∧
      (∀ k : Fin 32, t.regs.kekr[k] = if k.val < klen then pay.kekbuf[k] else 0#8) ∧
      t.regs.st = .run ∧
      t.regs.res = s.regs.res ∧ t.regs.olen = s.regs.olen ∧ t.regs.dout = s.regs.dout ∧
      t.inputs = s.inputs ∧ t.requests = s.requests ∧ t.reads = s.reads

/-- 43_unwrap.md rule R181: the valid START.U, with every register it writes and everything it leaves alone. -/
def Obligations.ValidStartULoadsAnUnwrapCall : Prop :=
  ∀ (s : State) (klen dlen : Nat) (pay : Payload),
    s.regs.st = .idle → (klen = 16 ∨ klen = 24 ∨ klen = 32) → dlen = klen + 8 →
    ∃ t, exec (.startU klen dlen pay) s = .next t ∧
      (∀ b : Fin 8, semiByte t.regs.a b.val = pay.din.toList.getD b.val 0#8) ∧
      (∀ k : Fin 4, k.val < klen / 8 →
        ∀ b : Fin 8, semiByte t.regs.r[k] b.val = pay.din.toList.getD (8 * (k.val + 1) + b.val) 0#8) ∧
      (∀ k : Fin 4, klen / 8 ≤ k.val → t.regs.r[k] = 0#64) ∧
      t.regs.n.toNat = klen / 8 ∧ t.regs.dir = .unwrap ∧ t.regs.j = 5#3 ∧ t.regs.i.toNat + 1 = klen / 8 ∧
      t.regs.klenr.toNat = klen ∧
      (∀ k : Fin 32, t.regs.kekr[k] = if k.val < klen then pay.kekbuf[k] else 0#8) ∧
      t.regs.st = .run ∧
      t.regs.res = s.regs.res ∧ t.regs.olen = s.regs.olen ∧ t.regs.dout = s.regs.dout ∧
      t.inputs = s.inputs ∧ t.requests = s.requests ∧ t.reads = s.reads

/-- 42_wrap.md rule R162, 43_unwrap.md rule R182 and 60_exceptions.md rule R225: an invalid START raises
InvalidLength, whose whole effect is on `RES` and `ST`, whatever the payload. -/
def Obligations.InvalidStartRaisesInvalidLength : Prop :=
  ∀ (s : State) (klen dlen : Nat) (pay : Payload), s.regs.st = .idle →
    (¬ ((klen = 16 ∨ klen = 24 ∨ klen = 32) ∧ dlen = klen) →
      exec (.startW klen dlen pay) s =
        .next { s with regs := { s.regs with res := .invalidLength, st := .done } }) ∧
    (¬ ((klen = 16 ∨ klen = 24 ∨ klen = 32) ∧ dlen = klen + 8) →
      exec (.startU klen dlen pay) s =
        .next { s with regs := { s.regs with res := .invalidLength, st := .done } })

/-- 44_host.md rule R201: a START while not IDLE and an ACK while not DONE change nothing. -/
def Obligations.CommandsNotReadyChangeNothing : Prop :=
  ∀ s : State,
    (s.regs.st ≠ .idle → ∀ (klen dlen : Nat) (pay : Payload),
      exec (.startW klen dlen pay) s = .next s ∧ exec (.startU klen dlen pay) s = .next s) ∧
    (s.regs.st ≠ .done → ∀ ignored : BitVec 17, exec (.ack ignored) s = .next s)

/-- 42_wrap.md rule R163: one forward round step, in every state of the invariant where it is enabled. -/
def Obligations.WstepDoesOneForwardRound : Prop :=
  ∀ (s : State) (b : Block), s.regs.Inv → s.regs.st = .run → s.regs.dir = .wrap →
    b = Config.portEnc s.regs.kek (cat s.regs.a (s.regs.readR s.regs.i)) →
    ∃ t, exec .wstep s = .next t ∧
      t.regs.a = hi b ^^^ be64 (s.regs.n.toNat * s.regs.j.toNat + s.regs.i.toNat + 1) ∧
      t.regs.readR s.regs.i = lo b ∧
      (∀ k : BitVec 2, k ≠ s.regs.i → t.regs.readR k = s.regs.readR k) ∧
      (s.regs.i.toNat + 1 < s.regs.n.toNat →
        t.regs.j = s.regs.j ∧ t.regs.i.toNat = s.regs.i.toNat + 1 ∧ t.regs.st = .run) ∧
      (s.regs.i.toNat + 1 = s.regs.n.toNat → s.regs.j.toNat < 5 →
        t.regs.j.toNat = s.regs.j.toNat + 1 ∧ t.regs.i = 0#2 ∧ t.regs.st = .run) ∧
      (s.regs.i.toNat + 1 = s.regs.n.toNat → s.regs.j = 5#3 →
        t.regs.j = s.regs.j ∧ t.regs.i = s.regs.i ∧ t.regs.st = .fin) ∧
      t.regs.n = s.regs.n ∧ t.regs.dir = .wrap ∧ t.regs.klenr = s.regs.klenr ∧ t.regs.kekr = s.regs.kekr ∧
      t.regs.res = s.regs.res ∧ t.regs.olen = s.regs.olen ∧ t.regs.dout = s.regs.dout ∧
      t.requests = s.requests ++
        [{ op := .enc, klen := s.regs.klenr, key := s.regs.kekr, blk := cat s.regs.a (s.regs.readR s.regs.i) }] ∧
      t.inputs = s.inputs ∧ t.reads = s.reads

/-- 43_unwrap.md rule R183: one inverse round step, in every state of the invariant where it is enabled. -/
def Obligations.UstepDoesOneInverseRound : Prop :=
  ∀ (s : State) (c : Semiblock) (b : Block), s.regs.Inv → s.regs.st = .run → s.regs.dir = .unwrap →
    c = s.regs.a ^^^ be64 (s.regs.n.toNat * s.regs.j.toNat + s.regs.i.toNat + 1) →
    b = Config.portDec s.regs.kek (cat c (s.regs.readR s.regs.i)) →
    ∃ t, exec .ustep s = .next t ∧
      t.regs.a = hi b ∧
      t.regs.readR s.regs.i = lo b ∧
      (∀ k : BitVec 2, k ≠ s.regs.i → t.regs.readR k = s.regs.readR k) ∧
      (0 < s.regs.i.toNat →
        t.regs.j = s.regs.j ∧ t.regs.i.toNat + 1 = s.regs.i.toNat ∧ t.regs.st = .run) ∧
      (s.regs.i = 0#2 → 0 < s.regs.j.toNat →
        t.regs.j.toNat + 1 = s.regs.j.toNat ∧ t.regs.i.toNat + 1 = s.regs.n.toNat ∧ t.regs.st = .run) ∧
      (s.regs.i = 0#2 → s.regs.j = 0#3 →
        t.regs.j = 0#3 ∧ t.regs.i = 0#2 ∧ t.regs.st = .fin) ∧
      t.regs.n = s.regs.n ∧ t.regs.dir = .unwrap ∧ t.regs.klenr = s.regs.klenr ∧ t.regs.kekr = s.regs.kekr ∧
      t.regs.res = s.regs.res ∧ t.regs.olen = s.regs.olen ∧ t.regs.dout = s.regs.dout ∧
      t.requests = s.requests ++
        [{ op := .dec, klen := s.regs.klenr, key := s.regs.kekr, blk := cat c (s.regs.readR s.regs.i) }] ∧
      t.inputs = s.inputs ∧ t.reads = s.reads

/-- 42_wrap.md rule R165: WFIN delivers `A ∥ R[0] ∥ .. ∥ R[N-1]` and clears the working registers. -/
def Obligations.WfinDeliversTheWrappedBuffer : Prop :=
  ∀ s : State, s.regs.Inv → s.regs.st = .fin → s.regs.dir = .wrap →
    ∃ t, exec .wfin s = .next t ∧
      (∀ p : Fin 40, t.regs.dout[p] = (join (s.regs.a :: s.regs.r.toList.take s.regs.n.toNat)).getD p.val 0#8) ∧
      t.regs.olen.toNat = 8 * (s.regs.n.toNat + 1) ∧ t.regs.olen.toNat = s.regs.klenr.toNat + 8 ∧
      t.regs = { Regs.reset with st := .done, res := .ok, olen := t.regs.olen, dout := t.regs.dout } ∧
      t.inputs = s.inputs ∧ t.requests = s.requests ∧ t.reads = s.reads

/-- 43_unwrap.md rule R186 and 60_exceptions.md rule R226: UFIN delivers `R[0] ∥ .. ∥ R[N-1]` if `A` equals `IV`, and
otherwise raises AuthenticationFailure with no byte; both clear the working registers. -/
def Obligations.UfinChecksAThenDelivers : Prop :=
  ∀ s : State, s.regs.Inv → s.regs.st = .fin → s.regs.dir = .unwrap →
    (s.regs.a = 0xA6A6A6A6A6A6A6A6#64 →
      ∃ t, exec .ufin s = .next t ∧
        (∀ p : Fin 40, t.regs.dout[p] = (join (s.regs.r.toList.take s.regs.n.toNat)).getD p.val 0#8) ∧
        t.regs.olen.toNat = 8 * s.regs.n.toNat ∧ t.regs.olen = s.regs.klenr ∧
        t.regs = { Regs.reset with st := .done, res := .ok, olen := t.regs.olen, dout := t.regs.dout } ∧
        t.inputs = s.inputs ∧ t.requests = s.requests ∧ t.reads = s.reads) ∧
    (s.regs.a ≠ 0xA6A6A6A6A6A6A6A6#64 →
      exec .ufin s = .next { s with regs := { Regs.reset with st := .done, res := .authFailure } })

/-- 44_host.md rule R202: ACK, after success and after both errors alike. -/
def Obligations.AckReleasesTheEngine : Prop :=
  ∀ (s : State) (ignored : BitVec 17), s.regs.st = .done →
    exec (.ack ignored) s =
      .next { s with regs :=
        { s.regs with dout := Vector.replicate 40 0#8, olen := 0#8, res := .none, st := .idle } }

/-- The state after ACK equals the reset state, in every state of the invariant (44_host.md rule R206). -/
def Obligations.AckRestoresTheResetState : Prop :=
  ∀ (s : State) (ignored : BitVec 17), s.regs.Inv → s.regs.st = .done →
    exec (.ack ignored) s = .next { s with regs := Regs.reset }

/-- 44_host.md rule R203: READ samples `STATUS` and `DOUT` in every state and changes no register; what it returns,
by state. That the sample is kept in a list is the model's choice (assumption log 3). -/
def Obligations.ReadSamplesStatusAndDout : Prop :=
  ∀ s : State,
    exec .read s = .next { s with reads := s.reads ++ [{ status := s.regs.olen ++ s.regs.res.bits ++ s.regs.st.bits, dout := s.regs.dout }] } ∧
    (s.regs.Inv →
      (s.regs.st = .idle → s.regs.readout = { status := 0x000#12, dout := Vector.replicate 40 0#8 }) ∧
      (s.regs.st = .run → s.regs.readout = { status := 0x001#12, dout := Vector.replicate 40 0#8 }) ∧
      (s.regs.st = .fin → s.regs.readout = { status := 0x002#12, dout := Vector.replicate 40 0#8 }) ∧
      (s.regs.st = .done → s.regs.res = .ok →
        s.regs.readout.status = s.regs.olen ++ 0b01#2 ++ 0b11#2 ∧ s.regs.readout.dout = s.regs.dout ∧
        ∀ p : Fin 40, s.regs.olen.toNat ≤ p.val → s.regs.readout.dout[p] = 0#8) ∧
      (s.regs.st = .done → s.regs.res = .invalidLength →
        s.regs.readout = { status := 0x00B#12, dout := Vector.replicate 40 0#8 }) ∧
      (s.regs.st = .done → s.regs.res = .authFailure →
        s.regs.readout = { status := 0x00F#12, dout := Vector.replicate 40 0#8 }))

/-- 70_reset_and_hazards.md rule R250 with 10_state.md rule R49: reset is enabled in every state and every register is
zero after it. -/
def Obligations.ResetClearsEveryRegister : Prop :=
  ∀ s : State, exec .reset s = .next { s with regs :=
    { a := 0#64, r := Vector.replicate 4 0#64, n := 0#3, j := 0#3, i := 0#2, dir := .wrap, st := .idle,
      klenr := 0#8, kekr := Vector.replicate 32 0#8, res := .none, olen := 0#8, dout := Vector.replicate 40 0#8 } }

/-- An engine step that `SEL` does not enable does nothing (the model's choice, assumption log 5; the selector never
asks for it, rule R100). -/
def Obligations.EngineStepsNotEnabledDoNothing : Prop :=
  ∀ s : State,
    (¬ (s.regs.st = .run ∧ s.regs.dir = .wrap) → exec .wstep s = .next s) ∧
    (¬ (s.regs.st = .run ∧ s.regs.dir = .unwrap) → exec .ustep s = .next s) ∧
    (¬ (s.regs.st = .fin ∧ s.regs.dir = .wrap) → exec .wfin s = .next s) ∧
    (¬ (s.regs.st = .fin ∧ s.regs.dir = .unwrap) → exec .ufin s = .next s)

/-! ### Whole-machine rules -/

/-- A step runs the decoded instruction: with the first turn taken off the list, `step` is `exec` of what the turn
selects; the engine's own turn, and a list with no turn left, select what `ST ∥ DIR` enables. The list
of turns is the model's choice (assumption log 2). -/
def Obligations.StepRunsTheDecodedInstruction : Prop :=
  ∀ (s : State) (rest : List Input) (i : Instr),
    (∀ hc pay, s.inputs = .command hc pay :: rest → decode (.command hc pay) = .ok i →
      step s = exec i { s with inputs := rest }) ∧
    (s.inputs = .readPort :: rest → step s = exec .read { s with inputs := rest }) ∧
    (s.inputs = .resetLine :: rest → step s = exec .reset { s with inputs := rest }) ∧
    (s.inputs = .engineTurn :: rest → decode (.selector s.regs.sel) = .ok i →
      step s = exec i { s with inputs := rest }) ∧
    (s.inputs = [] → decode (.selector s.regs.sel) = .ok i → step s = exec i s)

/-- 30_encoding.md rule R100, the rows with no engine step: on its turn in IDLE or DONE the engine waits and no
register changes. That it is the engine's turn when the list is empty is the model's choice (assumption log 2). -/
def Obligations.EngineWaitsInIdleAndDone : Prop :=
  ∀ s : State, (s.regs.st = .idle ∨ s.regs.st = .done) →
    (s.inputs = [] → step s = .next s) ∧
    (∀ rest, s.inputs = .engineTurn :: rest → step s = .next { s with inputs := rest })

/-- The engine's turn of the machine is `engineRegs` with the cipher connected to the port, in every state
(turns: assumption log 2). -/
def Obligations.EngineTurnIsTheEngineStep : Prop :=
  ∀ (s : State) (rest : List Input), (s.inputs = .engineTurn :: rest ∨ (s.inputs = [] ∧ rest = [])) →
    ∃ t, step s = .next t ∧ t.regs = engineRegs Config.blockCipher s.regs ∧ t.inputs = rest ∧ t.reads = s.reads

/-- Nothing stops the machine: every step from every state answers a next state (93_implementation_defined.md section
1, 30_encoding.md rule R103, 60_exceptions.md rule R231). -/
def Obligations.EveryStepAnswersANextState : Prop :=
  ∀ s : State, ∃ t, step s = .next t

/-- The invariant of 10_state.md rule R48 is kept by every step. -/
def Obligations.EveryStepKeepsTheInvariant : Prop :=
  ∀ s t : State, s.regs.Inv → step s = .next t → t.regs.Inv

/-- The state after reset meets the invariant. -/
def Obligations.ResetStateMeetsTheInvariant : Prop := State.reset.regs.Inv

/-- 10_state.md rule R50: the only changes of `ST` are these six, and which instruction makes each. -/
def Obligations.SequencerChangesInSixWaysOnly : Prop :=
  ∀ (s t : State) (i : Instr), s.regs.Inv → exec i s = .next t → t.regs.st ≠ s.regs.st →
    (s.regs.st = .idle ∧ t.regs.st = .run ∧
      ∃ klen dlen pay, (i = .startW klen dlen pay ∧ valid .wrap klen dlen = true) ∨
        (i = .startU klen dlen pay ∧ valid .unwrap klen dlen = true)) ∨
    (s.regs.st = .idle ∧ t.regs.st = .done ∧
      ∃ klen dlen pay, (i = .startW klen dlen pay ∧ valid .wrap klen dlen = false) ∨
        (i = .startU klen dlen pay ∧ valid .unwrap klen dlen = false)) ∨
    (s.regs.st = .run ∧ t.regs.st = .fin ∧ s.regs.AtLast ∧ (i = .wstep ∨ i = .ustep)) ∨
    (s.regs.st = .fin ∧ t.regs.st = .done ∧ (i = .wfin ∨ i = .ufin)) ∨
    (s.regs.st = .done ∧ t.regs.st = .idle ∧ ∃ ignored, i = .ack ignored) ∨
    (t.regs.st = .idle ∧ i = .reset)

/-- No data changes which step comes next or how many there are: two engines that agree on `ST`, `DIR`, `N` and the
position agree on them after a step, whatever their `A`, `R`, KEK, output and cipher are (10_state.md rule R50,
20_memory.md rule R80). -/
def Obligations.SequencingDoesNotDependOnData : Prop :=
  ∀ (bc bc' : BlockCipher) (e e' : Regs),
    e.st = e'.st → e.dir = e'.dir → e.n = e'.n → e.j = e'.j → e.i = e'.i →
    (engineRegs bc e).st = (engineRegs bc' e').st ∧ (engineRegs bc e).dir = (engineRegs bc' e').dir ∧
    (engineRegs bc e).n = (engineRegs bc' e').n ∧ (engineRegs bc e).j = (engineRegs bc' e').j ∧
    (engineRegs bc e).i = (engineRegs bc' e').i

/-- 60_exceptions.md rule R224: which instruction can raise which error, and when it does. `RES` takes an error code
from no other instruction and under no other condition. -/
def Obligations.ErrorsAreRaisedAsTheTableSays : Prop :=
  ∀ (s t : State) (i : Instr), exec i s = .next t →
    (t.regs.res = .invalidLength → s.regs.res ≠ .invalidLength →
      s.regs.st = .idle ∧ ∃ klen dlen pay, (i = .startW klen dlen pay ∧ valid .wrap klen dlen = false) ∨
        (i = .startU klen dlen pay ∧ valid .unwrap klen dlen = false)) ∧
    (t.regs.res = .authFailure → s.regs.res ≠ .authFailure →
      i = .ufin ∧ s.regs.st = .fin ∧ s.regs.dir = .unwrap ∧ s.regs.a ≠ 0xA6A6A6A6A6A6A6A6#64) ∧
    (∀ klen dlen pay, s.regs.st = .idle → i = .startW klen dlen pay → valid .wrap klen dlen = false →
      t.regs.res = .invalidLength) ∧
    (∀ klen dlen pay, s.regs.st = .idle → i = .startU klen dlen pay → valid .unwrap klen dlen = false →
      t.regs.res = .invalidLength) ∧
    (s.regs.st = .fin → s.regs.dir = .unwrap → s.regs.a ≠ 0xA6A6A6A6A6A6A6A6#64 → i = .ufin →
      t.regs.res = .authFailure)

/-- What leaves the engine: an ENC request from an enabled WSTEP only, a DEC request from an enabled USTEP only, each
exactly one and with the latched KEK (41_blockcipher_port.md rules R141, R142 and R146); a sample to the host from
READ only; and no instruction touches the turns to come. The lists are the model's choice (assumption logs 2 and 3). -/
def Obligations.RequestsOnlyFromRoundsAndSamplesOnlyFromRead : Prop :=
  ∀ (s t : State) (i : Instr), exec i s = .next t →
    t.inputs = s.inputs ∧ (i ≠ .read → t.reads = s.reads) ∧
    ((i = .wstep ∧ s.regs.st = .run ∧ s.regs.dir = .wrap ∧
        ∃ blk, t.requests = s.requests ++ [{ op := .enc, klen := s.regs.klenr, key := s.regs.kekr, blk := blk }]) ∨
     (i = .ustep ∧ s.regs.st = .run ∧ s.regs.dir = .unwrap ∧
        ∃ blk, t.requests = s.requests ++ [{ op := .dec, klen := s.regs.klenr, key := s.regs.kekr, blk := blk }]) ∨
     (¬ (i = .wstep ∧ s.regs.st = .run ∧ s.regs.dir = .wrap) ∧ ¬ (i = .ustep ∧ s.regs.st = .run ∧ s.regs.dir = .unwrap) ∧
        t.requests = s.requests))

/-- 10_state.md rules R42 and R44: `OLEN` is 0 and `DOUT` all zero except in DONE with OK, where the bytes from `OLEN`
up are zero; and every step of a run keeps it so. -/
def Obligations.NothingIsShownBeforeTheResult : Prop :=
  ∀ s t : State, s.regs.Inv → step s = .next t →
    (¬ (t.regs.st = .done ∧ t.regs.res = .ok) → t.regs.olen = 0#8 ∧ t.regs.dout = Vector.replicate 40 0#8) ∧
    (t.regs.st = .done → t.regs.res = .ok →
      0 < t.regs.olen.toNat ∧ ∀ p : Fin 40, t.regs.olen.toNat ≤ p.val → t.regs.dout[p] = 0#8)

/-- While a call runs, no step but reset changes the latched KEK, the direction or the number of semiblocks
(10_state.md rules R38 and R43, 41_blockcipher_port.md rule R146). -/
def Obligations.RunningCallKeepsItsKekAndDirection : Prop :=
  ∀ (s t : State) (i : Instr), s.regs.st = .run → exec i s = .next t → i ≠ .reset →
    t.regs.kek = s.regs.kek ∧ t.regs.klenr = s.regs.klenr ∧ t.regs.kekr = s.regs.kekr ∧
    t.regs.dir = s.regs.dir ∧ t.regs.n = s.regs.n ∧ (t.regs.st = .run ∨ t.regs.st = .fin)

/-- 20_memory.md rule R70: a START's effect depends on `KEKBUF[0..KLEN-1]` and `DIN[0..DLEN-1]` only, and an invalid
START's on neither buffer. -/
def Obligations.StartIgnoresBytesBeyondTheLengths : Prop :=
  ∀ (s : State) (klen dlen : Nat) (p q : Payload),
    (((∀ k : Fin 32, k.val < klen → p.kekbuf[k] = q.kekbuf[k]) ∧ (∀ k : Fin 40, k.val < dlen → p.din[k] = q.din[k])) →
      exec (.startW klen dlen p) s = exec (.startW klen dlen q) s ∧
      exec (.startU klen dlen p) s = exec (.startU klen dlen q) s) ∧
    (valid .wrap klen dlen = false → exec (.startW klen dlen p) s = exec (.startW klen dlen q) s) ∧
    (valid .unwrap klen dlen = false → exec (.startU klen dlen p) s = exec (.startU klen dlen q) s)

/-! ### Calls -/

/-- 42_wrap.md rule R164 and 10_state.md rule R37: after a valid START.W the engine takes exactly 6n WSTEP steps, with
t = 1, 2, .., 6n in this order, and is then in FIN at (5, n-1), whatever the cipher and the data. -/
def Obligations.WrapTakesSixNRoundSteps : Prop :=
  ∀ (bc : BlockCipher) (e : Regs) (n k : Nat) (pay : Payload),
    e.st = .idle → (n = 2 ∨ n = 3 ∨ n = 4) → k ≤ 6 * n →
    ∀ f, f = engineRun bc k (e.startWrap (8 * n) (8 * n) pay) →
      f.n.toNat = n ∧ f.dir = .wrap ∧
      (k < 6 * n → f.st = .run ∧ f.j.toNat ≤ 5 ∧ f.i.toNat < n ∧ ctr n f.j.toNat f.i.toNat = k + 1) ∧
      (k = 6 * n → f.st = .fin ∧ f.j = 5#3 ∧ f.i.toNat + 1 = n)

/-- 43_unwrap.md rule R184: after a valid START.U the engine takes exactly 6n USTEP steps, with t = 6n, .., 2, 1 in
this order, and is then in FIN at (0, 0), whatever the cipher and the data. -/
def Obligations.UnwrapTakesSixNRoundSteps : Prop :=
  ∀ (bc : BlockCipher) (e : Regs) (n k : Nat) (pay : Payload),
    e.st = .idle → (n = 2 ∨ n = 3 ∨ n = 4) → k ≤ 6 * n →
    ∀ f, f = engineRun bc k (e.startUnwrap (8 * n) (8 * n + 8) pay) →
      f.n.toNat = n ∧ f.dir = .unwrap ∧
      (k < 6 * n → f.st = .run ∧ f.j.toNat ≤ 5 ∧ f.i.toNat < n ∧ ctr n f.j.toNat f.i.toNat + k = 6 * n) ∧
      (k = 6 * n → f.st = .fin ∧ f.j = 0#3 ∧ f.i = 0#2)

/-- From every state of a call the engine is in DONE after exactly as many of its turns as positions remain, and one
more, and not before (70_reset_and_hazards.md rule R262). -/
def Obligations.EveryRunningCallReachesDone : Prop :=
  ∀ (bc : BlockCipher) (e : Regs), e.Inv →
    ∀ left, ((e.st = .run ∧ e.dir = .wrap ∧ left + e.n.toNat * e.j.toNat + e.i.toNat = 6 * e.n.toNat) ∨
        (e.st = .run ∧ e.dir = .unwrap ∧ left = e.n.toNat * e.j.toNat + e.i.toNat + 1) ∨
        (e.st = .fin ∧ left = 0)) →
      (engineRun bc (left + 1) e).st = .done ∧ ∀ k, k ≤ left → (engineRun bc k e).st ≠ .done

/-- 43_unwrap.md rule R185: under `BC_INV` a USTEP at the position of a WSTEP, with the same KEK (one that 00_scope.md
rule R17 admits), takes `A` and `R[I]` back. -/
def Obligations.UstepUndoesWstep : Prop :=
  ∀ bc : BlockCipher, bc.BcInv → ∀ e f : Regs, e.kek.wf = true →
    f.n = e.n → f.j = e.j → f.i = e.i → f.klenr = e.klenr → f.kekr = e.kekr →
    f.a = (e.wrapRound bc).a → f.readR e.i = (e.wrapRound bc).readR e.i →
    (f.unwrapRound bc).a = e.a ∧ (f.unwrapRound bc).readR e.i = e.readR e.i

/-- The wrapped buffer is exactly 8 bytes longer than the key, for every cipher (42_wrap.md rules R166 and R168). -/
def Obligations.WrapAddsEightBytes : Prop :=
  ∀ (enc : Kek → Block → Block) (kek : Kek) (key : List Byte),
    (kek.klen = 16 ∨ kek.klen = 24 ∨ kek.klen = 32) → key.length = kek.klen →
    (wrapF enc kek key).length = kek.klen + 8

/-- What the rules guarantee of an unwrap for every cipher: it gives 8n bytes if the final `A` is `IV`, and no byte
otherwise (43_unwrap.md rules R187 and R190). -/
def Obligations.UnwrapGivesAllBytesOrNone : Prop :=
  ∀ (dec : Kek → Block → Block) (kek : Kek) (w : List Byte),
    (kek.klen = 16 ∨ kek.klen = 24 ∨ kek.klen = 32) → w.length = kek.klen + 8 →
    ((unwrapLoops dec kek w).a = 0xA6A6A6A6A6A6A6A6#64 →
      ∃ key, unwrapF dec kek w = some key ∧ key.length = kek.klen) ∧
    ((unwrapLoops dec kek w).a ≠ 0xA6A6A6A6A6A6A6A6#64 → unwrapF dec kek w = none)

/-- 43_unwrap.md rule R189: the round trip, under `BC_INV`. -/
def Obligations.UnwrapOfWrapIsTheKey : Prop :=
  ∀ bc : BlockCipher, bc.BcInv → ∀ (kek : Kek) (key : List Byte),
    kek.wf = true → key.length = kek.klen →
    unwrapF bc.dec kek (wrapF bc.enc kek key) = some key

/-- 42_wrap.md rule R167: from the idle state a valid START.W and the engine steps end in DONE with `WRAPF` in `DOUT`,
and then no engine step is enabled. -/
def Obligations.WrapCallComputesWrapf : Prop :=
  ∀ (bc : BlockCipher) (klen : Nat) (pay : Payload), (klen = 16 ∨ klen = 24 ∨ klen = 32) →
    ∀ kek out f,
      kek = { klen := klen, kb := pay.kekbuf.toList.take klen : Kek } →
      out = wrapF bc.enc kek (pay.din.toList.take klen) →
      f = engineRun bc (6 * (klen / 8) + 1) (Regs.reset.startWrap klen klen pay) →
      f = { Regs.reset with st := .done, res := .ok, olen := BitVec.ofNat 8 (klen + 8),
                            dout := Vector.ofFn fun p => out.getD p.val 0#8 } ∧
      engineRegs bc f = f

/-- 43_unwrap.md rule R188: from the idle state a valid START.U and the engine steps end in DONE with the outcome of
`UNWRAPF`, and then no engine step is enabled. -/
def Obligations.UnwrapCallComputesUnwrapf : Prop :=
  ∀ (bc : BlockCipher) (klen : Nat) (pay : Payload), (klen = 16 ∨ klen = 24 ∨ klen = 32) →
    ∀ kek f,
      kek = { klen := klen, kb := pay.kekbuf.toList.take klen : Kek } →
      f = engineRun bc (6 * (klen / 8) + 1) (Regs.reset.startUnwrap klen (klen + 8) pay) →
      (∀ key, unwrapF bc.dec kek (pay.din.toList.take (klen + 8)) = some key →
        f = { Regs.reset with st := .done, res := .ok, olen := BitVec.ofNat 8 klen,
                              dout := Vector.ofFn fun p => key.getD p.val 0#8 }) ∧
      (unwrapF bc.dec kek (pay.din.toList.take (klen + 8)) = none →
        f = { Regs.reset with st := .done, res := .authFailure }) ∧
      engineRegs bc f = f

/-- The round trip through the engine: under `BC_INV`, an unwrap call on what a wrap call left in `DOUT`, with the
same KEK, ends in OK with the wrapped key (43_unwrap.md rule R189, through rules R167 and R188). -/
def Obligations.EngineUnwrapsWhatItWrapped : Prop :=
  ∀ bc : BlockCipher, bc.BcInv → ∀ (klen : Nat) (pay : Payload), (klen = 16 ∨ klen = 24 ∨ klen = 32) →
    ∀ f g,
      f = engineRun bc (6 * (klen / 8) + 1) (Regs.reset.startWrap klen klen pay) →
      g = engineRun bc (6 * (klen / 8) + 1)
        (f.release.startUnwrap klen (klen + 8) { kekbuf := pay.kekbuf, din := f.dout }) →
      g.st = .done ∧ g.res = .ok ∧ g.olen = BitVec.ofNat 8 klen ∧
      ∀ p : Fin 40, g.dout[p] = if p.val < klen then pay.din[p] else 0#8

/-- 44_host.md rule R208: on a machine whose engine is ready, the turns of an API call run START, the engine's steps,
READ and ACK; the sample the host takes says exactly what DOC's function of the same arguments gives, the engine ends
ready again, and the cipher port has seen 6n requests of the call's direction and no other (41_blockcipher_port.md
rule R147). The lists are the model's choice (assumption logs 2 and 3). -/
def Obligations.ApiCallComputesDocsFunction : Prop :=
  ∀ (s : State) (c : ApiCall) (turns rest : List Input),
    s.regs = Regs.reset → apiTurns c = some turns → s.inputs = turns ++ rest →
    ∃ x qs,
      Sys2Proof.core.run turns.length s =
        .next { regs := Regs.reset, inputs := rest, requests := s.requests ++ qs, reads := s.reads ++ [x] : State } ∧
      x.result = some (docCall Config.blockCipher c.dir c.data c.kek) ∧
      qs.length = (if valid c.dir c.kek.length c.data.length then 6 * (c.kek.length / 8) else 0) ∧
      ∀ q ∈ qs, q.kek = { klen := c.kek.length, kb := c.kek } ∧
        q.op = (match c.dir with | .wrap => .enc | .unwrap => .dec)

/-- Where the driver turns a call away because a length does not fit the command word, DOC's function gives
InvalidLength as well (00_scope.md rule R13, 44_host.md rule R208). -/
def Obligations.DriverRefusesOnlyInvalidLengths : Prop :=
  ∀ (bc : BlockCipher) (c : ApiCall),
    apiTurns c = none → docCall bc c.dir c.data c.kek = .error .invalidLength

/-! ### The driver -/

/-- Beyond the end of a buffer a read gives zero bytes: the model's choice (assumption log 14), since 20_memory.md rule
R62 gives `MemRead` within the buffer only. -/
def Obligations.ReadsBeyondABufferGiveZeroBytes : Prop :=
  ∀ (buf : List Byte) (off m k : Nat), k < m → buf.length ≤ off + k →
    (memRead buf off m).extractLsb' (8 * (m - 1 - k)) 8 = 0#8

/-- The macro of 44_host.md rule R208, line by line: a call too long for the command word returns InvalidLength and
issues nothing; the driver waits until `cmd_ready`, issues its START, waits until `done`, takes its sample, sends ACK
and returns what the sample says; while it waits the machine takes its own turn. The phases are the model's reading of
the macro (assumption log 18). -/
def Obligations.DriverFollowsTheMacro : Prop :=
  ∀ (c : ApiCall) (s : State),
    ((255 < c.kek.length ∨ 255 < c.data.length) →
      driverStep c { machine := s, phase := .entry } =
        .next { machine := s, phase := .returned (some (.error .invalidLength)) : Session }) ∧
    (c.kek.length ≤ 255 → c.data.length ≤ 255 →
      driverStep c { machine := s, phase := .entry } = .next { machine := s, phase := .waitReady : Session } ∧
      (s.regs.st = .idle →
        ∃ t, exec c.start s = .next t ∧
          driverStep c { machine := s, phase := .waitReady } = .next { machine := t, phase := .waitDone : Session })) ∧
    (s.regs.st ≠ .idle →
      ∃ t, step s = .next t ∧
        driverStep c { machine := s, phase := .waitReady } = .next { machine := t, phase := .waitReady : Session }) ∧
    (s.regs.st ≠ .done →
      ∃ t, step s = .next t ∧
        driverStep c { machine := s, phase := .waitDone } = .next { machine := t, phase := .waitDone : Session }) ∧
    (s.regs.st = .done →
      driverStep c { machine := s, phase := .waitDone } =
        .next { machine := { s with reads := s.reads ++ [s.regs.readout] },
                phase := .acknowledge s.regs.readout : Session }) ∧
    (∀ x, ∃ t, exec (.ack 0#17) s = .next t ∧
      driverStep c { machine := s, phase := .acknowledge x } =
        .next { machine := t, phase := .returned x.result : Session })

/-- 44_host.md rule R208 for the driver: a call that fits the command word, made while the engine is busy for w steps
(on another call, whose ACK may be among the turns to come) and then ready with only engine turns to come, returns
exactly what DOC's function of its arguments gives, whatever the payload bytes beyond them, and leaves the engine
ready; the cipher port has seen 6n requests of the call's direction and KEK, none for an invalid call. A call that does
not fit returns at once, with InvalidLength, which is DOC's answer too. Turns and lists: assumption logs 2, 3, 18. -/
def Obligations.DriverComputesDocsFunction : Prop :=
  (∀ (c : ApiCall) (s u : State) (w : Nat),
    c.kek.length ≤ 255 → c.data.length ≤ 255 →
    (∀ (k : Nat) (t : State), k < w → Sys2Proof.core.run k s = .next t → t.regs.st ≠ .idle) →
    Sys2Proof.core.run w s = .next u → u.regs.Inv → u.regs.st = .idle → (∀ x ∈ u.inputs, x = .engineTurn) →
    ∃ x qs m, m = callTurns c.dir c.kek.length c.data.length ∧
      (driver c).run (w + m + 4) { machine := s, phase := .entry } =
        .next { machine := { regs := Regs.reset, inputs := u.inputs.drop m, requests := u.requests ++ qs,
                             reads := u.reads ++ [x] },
                phase := .returned (some (docCall Config.blockCipher c.dir c.data c.kek)) : Session } ∧
      qs.length = (if valid c.dir c.kek.length c.data.length then 6 * (c.kek.length / 8) else 0) ∧
      ∀ q ∈ qs, q.kek = { klen := c.kek.length, kb := c.kek } ∧
        q.op = (match c.dir with | .wrap => .enc | .unwrap => .dec)) ∧
  (∀ (c : ApiCall) (s : State), (255 < c.kek.length ∨ 255 < c.data.length) →
    (driver c).run 1 { machine := s, phase := .entry } =
      .next { machine := s,
              phase := .returned (some (docCall Config.blockCipher c.dir c.data c.kek)) : Session })
end

