-- ==== Sys2Proof/Laws/Encoding.lean ====
section
/-! SUPPORT. The words bit by bit: the START and ACK words, the status word, the step selector. -/

namespace Sys2Proof.Machine

open Sys2Proof

/-- The bits of a START word. -/
theorem startWord_getLsbD (d : BitVec 1) (k l i : Nat) :
    (startWord d k l).getLsbD i = if i < 8 then (BitVec.ofNat 8 l).getLsbD i
      else if i < 16 then (BitVec.ofNat 8 k).getLsbD (i - 8) else d.getLsbD (i - 16) := by
  refine (BitVec.getLsbD_append (x := 0#1 ++ d ++ BitVec.ofNat 8 k) (y := BitVec.ofNat 8 l) (i := i)).trans ?_
  by_cases h : i < 8
  · simp [h]
  · by_cases h2 : i < 16
    · have : i - 8 < 8 := by omega
      simp only [h, h2, this, BitVec.getLsbD_append, if_true, if_false]
    · have h3 : ¬ (i - 8 < 8) := by omega
      have h4 : i - 8 - 8 = i - 16 := by omega
      simp only [h, h2, h3, h4, BitVec.getLsbD_append, if_false]
      split
      · rfl
      · simp; rw [BitVec.getLsbD_of_ge _ _ (by omega)]

/-- The fields of a START word. -/
theorem startWord_fields (d : BitVec 1) (k l : Nat) :
    (startWord d k l).extractLsb' 8 8 = BitVec.ofNat 8 k ∧ (startWord d k l).extractLsb' 0 8 = BitVec.ofNat 8 l ∧
    (startWord d k l).getLsbD 17 = false ∧ (startWord d k l).getLsbD 16 = d.getLsbD 0 := by
  refine ⟨?_, ?_, ?_, ?_⟩
  · apply BitVec.eq_of_getLsbD_eq; intro i hi
    have : ¬ (8 + i < 8) := by omega
    have h2 : 8 + i < 16 := by omega
    have h3 : 8 + i - 8 = i := by omega
    simp only [BitVec.getLsbD_extractLsb', startWord_getLsbD, this, h2, h3, hi]; simp
  · apply BitVec.eq_of_getLsbD_eq; intro i hi
    simp only [BitVec.getLsbD_extractLsb', startWord_getLsbD, hi, Nat.zero_add]; simp
  · rw [startWord_getLsbD]; simp
  · rw [startWord_getLsbD]; simp

/-- The bits of an ACK word. -/
theorem ackWord_getLsbD (x : BitVec 17) (i : Nat) :
    (ackWord x).getLsbD i = if i < 17 then x.getLsbD i else decide (i = 17) := by
  refine (BitVec.getLsbD_append (x := 1#1) (y := x) (i := i)).trans ?_
  by_cases h : i < 17
  · simp [h]
  · simp only [h, if_false, BitVec.getLsbD_one]; simp; omega

/-- A word with bit 17 clear is the START word of its fields. -/
theorem word_of_fields (hc : BitVec 18) (h : hc.getLsbD 17 = false) :
   startWord (hc.extractLsb' 16 1) (hcKlen hc) (hcDlen hc) = hc := by
  apply BitVec.eq_of_getLsbD_eq; intro i hi
  simp only [startWord_getLsbD, hcKlen, hcDlen, BitVec.ofNat_toNat, BitVec.setWidth_eq, BitVec.getLsbD_extractLsb']
  by_cases h8 : i < 8
  · simp [h8]
  · by_cases h16 : i < 16
    · have : i - 8 < 8 := by omega
      have e : 8 + (i - 8) = i := by omega
      simp only [h8, h16, this, e]; simp
    · have : i = 16 ∨ i = 17 := by omega
      rcases this with rfl | rfl
      · simp
      · rw [h]; simp

/-- The bits of the status word. -/
theorem status_getLsbD (e : Regs) (i : Nat) :
    e.status.getLsbD i =
      if i < 2 then e.st.bits.getLsbD i
      else if i < 4 then e.res.bits.getLsbD (i - 2)
      else e.olen.getLsbD (i - 4) := by
  refine (BitVec.getLsbD_append (x := e.olen ++ e.res.bits) (y := e.st.bits) (i := i)).trans ?_
  by_cases h : i < 2
  · simp [h]
  · by_cases h2 : i < 4
    · have : i - 2 < 2 := by omega
      simp only [h, h2, this, BitVec.getLsbD_append, if_true, if_false]
    · have h3 : ¬ (i - 2 < 2) := by omega
      have h4 : i - 2 - 2 = i - 4 := by omega
      simp only [h, h2, h3, h4, BitVec.getLsbD_append, if_false]

/-- The selector of an engine that runs or finishes names its step. -/
theorem decode_sel_run (e : Regs) (h : e.st = .run) :
    decode (.selector e.sel) = .ok (match e.dir with | .wrap => .wstep | .unwrap => .ustep) := by
  cases hd : e.dir <;> simp [Regs.sel, h, hd, Seq.bits, Dir.bit, decode, decodeSelector]

theorem decode_sel_fin (e : Regs) (h : e.st = .fin) :
    decode (.selector e.sel) = .ok (match e.dir with | .wrap => .wfin | .unwrap => .ufin) := by
  cases hd : e.dir <;> simp [Regs.sel, h, hd, Seq.bits, Dir.bit, decode, decodeSelector]

/-- The selector of an engine that waits names none. -/
theorem decode_sel_idle (e : Regs) (h : e.st = .idle) : decode (.selector e.sel) = .error .waitsForStart := by
  cases hd : e.dir <;> simp [Regs.sel, h, hd, Seq.bits, Dir.bit, decode, decodeSelector]

theorem decode_sel_done (e : Regs) (h : e.st = .done) : decode (.selector e.sel) = .error .waitsForAck := by
  cases hd : e.dir <;> simp [Regs.sel, h, hd, Seq.bits, Dir.bit, decode, decodeSelector]

end Sys2Proof.Machine
end

