-- ==== Sys2Proof/Laws/Operands.lean ====
section
/-! SUPPORT. The semiblock pipeline and the buffer primitives: what each gives, byte by byte. -/

namespace Sys2Proof.Machine

/-- A semiblock is its eight bytes. -/
theorem semi_ext (x y : Semiblock) (h : ∀ k, k < 8 → semiByte x k = semiByte y k) : x = y := by
  apply BitVec.eq_of_getLsbD_eq
  intro i hi
  have h1 := congrArg (fun b => BitVec.getLsbD b (i % 8)) (h (7 - i / 8) (by omega))
  simp only [semiByte, BitVec.getLsbD_extractLsb'] at h1
  have : 8 * (7 - (7 - i / 8)) + i % 8 = i := by omega
  simpa [this, Nat.mod_lt] using h1

/-- Byte k of what is read from offset `off` is the byte of the buffer at `off + k`. -/
theorem memRead_byte (buf : List Byte) (off m k : Nat) (h : k < m) :
    (memRead buf off m).extractLsb' (8 * (m - 1 - k)) 8 = buf.getD (off + k) 0#8 := by
  induction m with
  | zero => omega
  | succ m ih =>
    apply BitVec.eq_of_getLsbD_eq
    intro i hi
    by_cases hk : k = m
    · subst hk
      simp [memRead, BitVec.getLsbD_append, hi]
    · have := congrArg (fun b => BitVec.getLsbD b i) (ih (by omega))
      simp only [memRead, BitVec.getLsbD_extractLsb'] at this ⊢
      rw [← this]
      have h2 : 8 * (m + 1 - 1 - k) + i = (8 * (m - 1 - k) + i) + 8 := by omega
      simp only [h2]
      simp [BitVec.getLsbD_append, hi]

/-- Byte k of a loaded semiblock is the byte of the buffer at `off + k`. -/
theorem loadSemi_byte (buf : List Byte) (off k : Nat) (h : k < 8) :
    semiByte (loadSemi buf off) k = buf.getD (off + k) 0#8 := memRead_byte buf off 8 k h

/-- Byte b of the bytes of a semiblock. -/
theorem semiBytesOf_getD (s : Semiblock) (b : Nat) (h : b < 8) :
    (semiBytesOf s).getD b 0#8 = semiByte s b := by
  simp [semiBytesOf, Config.semiBytes, List.getD, h]

theorem semiBytesOf_length (s : Semiblock) : (semiBytesOf s).length = 8 := by simp [semiBytesOf, Config.semiBytes]

/-- A join has eight bytes for each semiblock. -/
theorem join_length (l : List Semiblock) : (join l).length = 8 * l.length := by
  induction l with
  | nil => rfl
  | cons a l ih => simp [join, semiBytesOf_length] at *; omega

/-- Byte b of semiblock k stands at offset 8k + b of a join. -/
theorem join_getD (l : List Semiblock) (k b : Nat) (hk : k < l.length) (hb : b < 8) :
    (join l).getD (8 * k + b) 0#8 = semiByte (l.getD k 0#64) b := by
  induction l generalizing k with
  | nil => simp at hk
  | cons a l ih =>
    rw [join, List.flatMap_cons, ← join]
    cases k with
    | zero =>
      rw [List.getD_append _ _ _ _ (by rw [semiBytesOf_length]; omega)]
      simpa using semiBytesOf_getD a b hb
    | succ k =>
      rw [List.getD_append_right _ _ _ _ (by rw [semiBytesOf_length]; omega), semiBytesOf_length]
      have : 8 * (k + 1) + b - 8 = 8 * k + b := by omega
      rw [this, ih k (by simpa using hk)]; rfl

theorem split_length (buf) (m) : (split buf m).length = m := by simp [split]

/-- Semiblock k of a split is loaded from offset 8k. -/
theorem split_getD (buf : List Byte) (m k : Nat) (h : k < m) :
    (split buf m).getD k 0#64 = loadSemi buf (8 * k) := by
  simp [split, List.getD, h, Config.semiBytes]

/-- Byte `p` of the buffer after one semiblock is written to it. -/
theorem memWrite_getElem (d : Vector Byte 40) (off : Nat) (s : Semiblock) (p : Fin 40) :
    (memWrite d off Config.semiBytes s)[p] =
      if off ≤ p.val ∧ p.val < off + 8 then semiByte s (p.val - off) else d[p] := by
  have := p.isLt
  simp [memWrite, Config.semiBytes, semiByte]

/-- A byte below the length of a prefix is the byte of the whole buffer. -/
theorem getD_take_toList {n} (v : Vector Byte n) (m k : Nat) (h : k < m) :
    (v.toList.take m).getD k 0#8 = v.toList.getD k 0#8 := by
  simp [List.getD, h]

/-- What is read back from the register just written, and from any other. -/
theorem readR_writeR (e : Regs) (k l : BitVec 2) (v) :
    (e.writeR k v).readR l = if l = k then v else e.readR l := by
  unfold Regs.readR Regs.writeR
  by_cases h : l = k
  · subst h; simp
  · have : ¬ k.toNat = l.toNat := fun h' => h (BitVec.eq_of_toNat_eq h'.symm)
    simp [h, this]

/-- Entry k of the register file is semiblock k of the buffer, zero above them. -/
theorem registerFile_getElem (l : List Semiblock) (k : Fin 4) : (registerFile l)[k] = l.getD k.val 0#64 := by
  simp [registerFile]

/-- Byte k of the latched KEK. -/
theorem latchedKek_getElem (klen : Nat) (kekbuf : Vector Byte 32) (k : Fin 32) :
    (latchedKek klen kekbuf)[k] = if k.val < klen then kekbuf[k] else 0#8 := by
  simp [latchedKek]

/-- `VALID`, as the condition on the lengths it stands for. -/
theorem valid_eq_true_iff (dir : Dir) (klen dlen : Nat) :
    valid dir klen dlen = true ↔ (klen = 16 ∨ klen = 24 ∨ klen = 32) ∧ dlen = klen + 8 * dir.num := by
  simp [valid, kekLengthOk]

end Sys2Proof.Machine
end

