-- ==== Sys2Proof/Laws/State.lean ====
section
/-! SUPPORT. One lemma per field per update of the state, each true by `rfl`, so that no proof unfolds a record
update. -/

namespace Sys2Proof.Machine

/-! ### The machine -/

@[simp] theorem State.setRegs_regs (s : State) (e : Regs) : (s.setRegs e).regs = e := rfl
@[simp] theorem State.setRegs_inputs (s : State) (e : Regs) : (s.setRegs e).inputs = s.inputs := rfl
@[simp] theorem State.setRegs_requests (s : State) (e : Regs) : (s.setRegs e).requests = s.requests := rfl
@[simp] theorem State.setRegs_reads (s : State) (e : Regs) : (s.setRegs e).reads = s.reads := rfl

@[simp] theorem State.setInputs_regs (s : State) (l : List Input) : (s.setInputs l).regs = s.regs := rfl
@[simp] theorem State.setInputs_inputs (s : State) (l : List Input) : (s.setInputs l).inputs = l := rfl
@[simp] theorem State.setInputs_requests (s : State) (l : List Input) : (s.setInputs l).requests = s.requests := rfl
@[simp] theorem State.setInputs_reads (s : State) (l : List Input) : (s.setInputs l).reads = s.reads := rfl

@[simp] theorem State.logRequest_regs (s : State) (q : PortRequest) : (s.logRequest q).regs = s.regs := rfl
@[simp] theorem State.logRequest_inputs (s : State) (q : PortRequest) : (s.logRequest q).inputs = s.inputs := rfl
@[simp] theorem State.logRequest_requests (s : State) (q : PortRequest) :
    (s.logRequest q).requests = s.requests ++ [q] := rfl
@[simp] theorem State.logRequest_reads (s : State) (q : PortRequest) : (s.logRequest q).reads = s.reads := rfl

@[simp] theorem State.logRead_regs (s : State) (x : Readout) : (s.logRead x).regs = s.regs := rfl
@[simp] theorem State.logRead_inputs (s : State) (x : Readout) : (s.logRead x).inputs = s.inputs := rfl
@[simp] theorem State.logRead_requests (s : State) (x : Readout) : (s.logRead x).requests = s.requests := rfl
@[simp] theorem State.logRead_reads (s : State) (x : Readout) : (s.logRead x).reads = s.reads ++ [x] := rfl

@[simp] theorem takeTurn_regs (s : State) : (takeTurn s).regs = s.regs := rfl
@[simp] theorem takeTurn_inputs (s : State) : (takeTurn s).inputs = s.inputs.tail := rfl
@[simp] theorem takeTurn_requests (s : State) : (takeTurn s).requests = s.requests := rfl
@[simp] theorem takeTurn_reads (s : State) : (takeTurn s).reads = s.reads := rfl

/-! ### Latching a call -/

section
variable (e : Regs) (d : Dir) (m : Nat) (kb : Vector Byte 32)

variable (x : Semiblock) (l : List Semiblock) (y : BitVec 3) (z : BitVec 2)

@[simp] theorem Regs.load_a : (e.load d m kb x l y z).a = x := rfl
@[simp] theorem Regs.load_r : (e.load d m kb x l y z).r = registerFile l := rfl
@[simp] theorem Regs.load_n : (e.load d m kb x l y z).n = BitVec.ofNat 3 (m / 8) := rfl
@[simp] theorem Regs.load_j : (e.load d m kb x l y z).j = y := rfl
@[simp] theorem Regs.load_i : (e.load d m kb x l y z).i = z := rfl
@[simp] theorem Regs.load_dir : (e.load d m kb x l y z).dir = d := rfl
@[simp] theorem Regs.load_st : (e.load d m kb x l y z).st = .run := rfl
@[simp] theorem Regs.load_klenr : (e.load d m kb x l y z).klenr = BitVec.ofNat 8 m := rfl
@[simp] theorem Regs.load_kekr : (e.load d m kb x l y z).kekr = latchedKek m kb := rfl
@[simp] theorem Regs.load_res : (e.load d m kb x l y z).res = e.res := rfl
@[simp] theorem Regs.load_olen : (e.load d m kb x l y z).olen = e.olen := rfl
@[simp] theorem Regs.load_dout : (e.load d m kb x l y z).dout = e.dout := rfl

end

/-! ### Writing a key semiblock -/

@[simp] theorem Regs.writeR_a (e : Regs) (k : BitVec 2) (v : Semiblock) : (e.writeR k v).a = e.a := rfl
@[simp] theorem Regs.writeR_r (e : Regs) (k : BitVec 2) (v : Semiblock) :
    (e.writeR k v).r = e.r.set k.toNat v k.isLt := rfl
@[simp] theorem Regs.writeR_n (e : Regs) (k : BitVec 2) (v : Semiblock) : (e.writeR k v).n = e.n := rfl
@[simp] theorem Regs.writeR_j (e : Regs) (k : BitVec 2) (v : Semiblock) : (e.writeR k v).j = e.j := rfl
@[simp] theorem Regs.writeR_i (e : Regs) (k : BitVec 2) (v : Semiblock) : (e.writeR k v).i = e.i := rfl
@[simp] theorem Regs.writeR_dir (e : Regs) (k : BitVec 2) (v : Semiblock) : (e.writeR k v).dir = e.dir := rfl
@[simp] theorem Regs.writeR_st (e : Regs) (k : BitVec 2) (v : Semiblock) : (e.writeR k v).st = e.st := rfl
@[simp] theorem Regs.writeR_klenr (e : Regs) (k : BitVec 2) (v : Semiblock) : (e.writeR k v).klenr = e.klenr := rfl
@[simp] theorem Regs.writeR_kekr (e : Regs) (k : BitVec 2) (v : Semiblock) : (e.writeR k v).kekr = e.kekr := rfl
@[simp] theorem Regs.writeR_res (e : Regs) (k : BitVec 2) (v : Semiblock) : (e.writeR k v).res = e.res := rfl
@[simp] theorem Regs.writeR_olen (e : Regs) (k : BitVec 2) (v : Semiblock) : (e.writeR k v).olen = e.olen := rfl
@[simp] theorem Regs.writeR_dout (e : Regs) (k : BitVec 2) (v : Semiblock) : (e.writeR k v).dout = e.dout := rfl

/-! ### Clearing the working registers -/

@[simp] theorem Regs.clearWorking_a (e : Regs) : (e.clearWorking).a = 0#64 := rfl
@[simp] theorem Regs.clearWorking_r (e : Regs) : (e.clearWorking).r = Vector.replicate 4 0#64 := rfl
@[simp] theorem Regs.clearWorking_n (e : Regs) : (e.clearWorking).n = 0#3 := rfl
@[simp] theorem Regs.clearWorking_j (e : Regs) : (e.clearWorking).j = 0#3 := rfl
@[simp] theorem Regs.clearWorking_i (e : Regs) : (e.clearWorking).i = 0#2 := rfl
@[simp] theorem Regs.clearWorking_dir (e : Regs) : (e.clearWorking).dir = .wrap := rfl
@[simp] theorem Regs.clearWorking_st (e : Regs) : (e.clearWorking).st = e.st := rfl
@[simp] theorem Regs.clearWorking_klenr (e : Regs) : (e.clearWorking).klenr = 0#8 := rfl
@[simp] theorem Regs.clearWorking_kekr (e : Regs) : (e.clearWorking).kekr = Vector.replicate 32 0#8 := rfl
@[simp] theorem Regs.clearWorking_res (e : Regs) : (e.clearWorking).res = e.res := rfl
@[simp] theorem Regs.clearWorking_olen (e : Regs) : (e.clearWorking).olen = e.olen := rfl
@[simp] theorem Regs.clearWorking_dout (e : Regs) : (e.clearWorking).dout = e.dout := rfl

/-! ### Moving on, to a next position and past the last -/

@[simp] theorem Regs.advance_some_a (e : Regs) (p : BitVec 3 × BitVec 2) : (e.advance (some p)).a = e.a := rfl
@[simp] theorem Regs.advance_some_r (e : Regs) (p : BitVec 3 × BitVec 2) : (e.advance (some p)).r = e.r := rfl
@[simp] theorem Regs.advance_some_n (e : Regs) (p : BitVec 3 × BitVec 2) : (e.advance (some p)).n = e.n := rfl
@[simp] theorem Regs.advance_some_j (e : Regs) (p : BitVec 3 × BitVec 2) : (e.advance (some p)).j = p.1 := rfl
@[simp] theorem Regs.advance_some_i (e : Regs) (p : BitVec 3 × BitVec 2) : (e.advance (some p)).i = p.2 := rfl
@[simp] theorem Regs.advance_some_dir (e : Regs) (p : BitVec 3 × BitVec 2) : (e.advance (some p)).dir = e.dir := rfl
@[simp] theorem Regs.advance_some_st (e : Regs) (p : BitVec 3 × BitVec 2) : (e.advance (some p)).st = e.st := rfl
@[simp] theorem Regs.advance_some_klenr (e : Regs) (p : BitVec 3 × BitVec 2) :
    (e.advance (some p)).klenr = e.klenr := rfl
@[simp] theorem Regs.advance_some_kekr (e : Regs) (p : BitVec 3 × BitVec 2) :
    (e.advance (some p)).kekr = e.kekr := rfl
@[simp] theorem Regs.advance_some_res (e : Regs) (p : BitVec 3 × BitVec 2) : (e.advance (some p)).res = e.res := rfl
@[simp] theorem Regs.advance_some_olen (e : Regs) (p : BitVec 3 × BitVec 2) :
    (e.advance (some p)).olen = e.olen := rfl
@[simp] theorem Regs.advance_some_dout (e : Regs) (p : BitVec 3 × BitVec 2) :
    (e.advance (some p)).dout = e.dout := rfl
@[simp] theorem Regs.advance_none_a (e : Regs) : (e.advance none).a = e.a := rfl
@[simp] theorem Regs.advance_none_r (e : Regs) : (e.advance none).r = e.r := rfl
@[simp] theorem Regs.advance_none_n (e : Regs) : (e.advance none).n = e.n := rfl
@[simp] theorem Regs.advance_none_j (e : Regs) : (e.advance none).j = e.j := rfl
@[simp] theorem Regs.advance_none_i (e : Regs) : (e.advance none).i = e.i := rfl
@[simp] theorem Regs.advance_none_dir (e : Regs) : (e.advance none).dir = e.dir := rfl
@[simp] theorem Regs.advance_none_st (e : Regs) : (e.advance none).st = .fin := rfl
@[simp] theorem Regs.advance_none_klenr (e : Regs) : (e.advance none).klenr = e.klenr := rfl
@[simp] theorem Regs.advance_none_kekr (e : Regs) : (e.advance none).kekr = e.kekr := rfl
@[simp] theorem Regs.advance_none_res (e : Regs) : (e.advance none).res = e.res := rfl
@[simp] theorem Regs.advance_none_olen (e : Regs) : (e.advance none).olen = e.olen := rfl
@[simp] theorem Regs.advance_none_dout (e : Regs) : (e.advance none).dout = e.dout := rfl

/-! ### Delivering a result -/

@[simp] theorem Regs.deliver_a (e : Regs) (l : List Semiblock) : (e.deliver l).a = 0#64 := rfl
@[simp] theorem Regs.deliver_r (e : Regs) (l : List Semiblock) : (e.deliver l).r = Vector.replicate 4 0#64 := rfl
@[simp] theorem Regs.deliver_n (e : Regs) (l : List Semiblock) : (e.deliver l).n = 0#3 := rfl
@[simp] theorem Regs.deliver_j (e : Regs) (l : List Semiblock) : (e.deliver l).j = 0#3 := rfl
@[simp] theorem Regs.deliver_i (e : Regs) (l : List Semiblock) : (e.deliver l).i = 0#2 := rfl
@[simp] theorem Regs.deliver_dir (e : Regs) (l : List Semiblock) : (e.deliver l).dir = .wrap := rfl
@[simp] theorem Regs.deliver_st (e : Regs) (l : List Semiblock) : (e.deliver l).st = .done := rfl
@[simp] theorem Regs.deliver_klenr (e : Regs) (l : List Semiblock) : (e.deliver l).klenr = 0#8 := rfl
@[simp] theorem Regs.deliver_kekr (e : Regs) (l : List Semiblock) :
    (e.deliver l).kekr = Vector.replicate 32 0#8 := rfl
@[simp] theorem Regs.deliver_res (e : Regs) (l : List Semiblock) : (e.deliver l).res = .ok := rfl
@[simp] theorem Regs.deliver_olen (e : Regs) (l : List Semiblock) :
    (e.deliver l).olen = BitVec.ofNat 8 (Config.semiBytes * l.length) := rfl
@[simp] theorem Regs.deliver_dout (e : Regs) (l : List Semiblock) :
    (e.deliver l).dout = clearFrom (writeSemis e.dout 0 l) (Config.semiBytes * l.length) := rfl

/-! ### Raising an error -/

@[simp] theorem Regs.raise_invalidLength_a (e : Regs) : (e.raise .invalidLength).a = e.a := rfl
@[simp] theorem Regs.raise_invalidLength_r (e : Regs) : (e.raise .invalidLength).r = e.r := rfl
@[simp] theorem Regs.raise_invalidLength_n (e : Regs) : (e.raise .invalidLength).n = e.n := rfl
@[simp] theorem Regs.raise_invalidLength_j (e : Regs) : (e.raise .invalidLength).j = e.j := rfl
@[simp] theorem Regs.raise_invalidLength_i (e : Regs) : (e.raise .invalidLength).i = e.i := rfl
@[simp] theorem Regs.raise_invalidLength_dir (e : Regs) : (e.raise .invalidLength).dir = e.dir := rfl
@[simp] theorem Regs.raise_invalidLength_st (e : Regs) : (e.raise .invalidLength).st = .done := rfl
@[simp] theorem Regs.raise_invalidLength_klenr (e : Regs) : (e.raise .invalidLength).klenr = e.klenr := rfl
@[simp] theorem Regs.raise_invalidLength_kekr (e : Regs) : (e.raise .invalidLength).kekr = e.kekr := rfl
@[simp] theorem Regs.raise_invalidLength_res (e : Regs) : (e.raise .invalidLength).res = .invalidLength := rfl
@[simp] theorem Regs.raise_invalidLength_olen (e : Regs) : (e.raise .invalidLength).olen = e.olen := rfl
@[simp] theorem Regs.raise_invalidLength_dout (e : Regs) : (e.raise .invalidLength).dout = e.dout := rfl
@[simp] theorem Regs.raise_authenticationFailure_a (e : Regs) : (e.raise .authenticationFailure).a = 0#64 := rfl
@[simp] theorem Regs.raise_authenticationFailure_r (e : Regs) :
    (e.raise .authenticationFailure).r = Vector.replicate 4 0#64 := rfl
@[simp] theorem Regs.raise_authenticationFailure_n (e : Regs) : (e.raise .authenticationFailure).n = 0#3 := rfl
@[simp] theorem Regs.raise_authenticationFailure_j (e : Regs) : (e.raise .authenticationFailure).j = 0#3 := rfl
@[simp] theorem Regs.raise_authenticationFailure_i (e : Regs) : (e.raise .authenticationFailure).i = 0#2 := rfl
@[simp] theorem Regs.raise_authenticationFailure_dir (e : Regs) : (e.raise .authenticationFailure).dir = .wrap := rfl
@[simp] theorem Regs.raise_authenticationFailure_st (e : Regs) : (e.raise .authenticationFailure).st = .done := rfl
@[simp] theorem Regs.raise_authenticationFailure_klenr (e : Regs) :
    (e.raise .authenticationFailure).klenr = 0#8 := rfl
@[simp] theorem Regs.raise_authenticationFailure_kekr (e : Regs) :
    (e.raise .authenticationFailure).kekr = Vector.replicate 32 0#8 := rfl
@[simp] theorem Regs.raise_authenticationFailure_res (e : Regs) :
    (e.raise .authenticationFailure).res = .authFailure := rfl
@[simp] theorem Regs.raise_authenticationFailure_olen (e : Regs) :
    (e.raise .authenticationFailure).olen = e.olen := rfl
@[simp] theorem Regs.raise_authenticationFailure_dout (e : Regs) :
    (e.raise .authenticationFailure).dout = e.dout := rfl

/-! ### Releasing the engine -/

@[simp] theorem Regs.release_a (e : Regs) : (e.release).a = e.a := rfl
@[simp] theorem Regs.release_r (e : Regs) : (e.release).r = e.r := rfl
@[simp] theorem Regs.release_n (e : Regs) : (e.release).n = e.n := rfl
@[simp] theorem Regs.release_j (e : Regs) : (e.release).j = e.j := rfl
@[simp] theorem Regs.release_i (e : Regs) : (e.release).i = e.i := rfl
@[simp] theorem Regs.release_dir (e : Regs) : (e.release).dir = e.dir := rfl
@[simp] theorem Regs.release_st (e : Regs) : (e.release).st = .idle := rfl
@[simp] theorem Regs.release_klenr (e : Regs) : (e.release).klenr = e.klenr := rfl
@[simp] theorem Regs.release_kekr (e : Regs) : (e.release).kekr = e.kekr := rfl
@[simp] theorem Regs.release_res (e : Regs) : (e.release).res = .none := rfl
@[simp] theorem Regs.release_olen (e : Regs) : (e.release).olen = 0#8 := rfl
@[simp] theorem Regs.release_dout (e : Regs) : (e.release).dout = Vector.replicate 40 0#8 := rfl

end Sys2Proof.Machine
end

