-- ==== Sys2Proof/Laws/Ops.lean ====
section
/-! SUPPORT. The shared operations: what each can do, said once. -/

namespace Sys2Proof.Machine

/-- Moving on changes the position and `ST` only: `ST` to FIN past the last position, and not otherwise. -/
theorem advance_keep (e : Regs) (p) :
    (e.advance p).n = e.n ∧ (e.advance p).dir = e.dir ∧ (e.advance p).klenr = e.klenr ∧
    (e.advance p).kekr = e.kekr ∧ (e.advance p).res = e.res ∧ (e.advance p).olen = e.olen ∧
    (e.advance p).dout = e.dout ∧
    ((p = none ∧ (e.advance p).st = .fin) ∨ (p ≠ none ∧ (e.advance p).st = e.st)) := by
  cases p <;> simp [Regs.advance]

@[simp] theorem advance_r (e : Regs) (p) : (e.advance p).r = e.r := by cases p <;> rfl

@[simp] theorem advance_a (e : Regs) (p) : (e.advance p).a = e.a := by cases p <;> rfl

/-- `DOUT` after a list of semiblocks is written to it. -/
theorem writeSemis_getElem (l : List Semiblock) (d : Vector Byte 40) (off : Nat) (p : Fin 40) :
    (writeSemis d off l)[p] =
      if off ≤ p.val ∧ p.val < off + 8 * l.length then (join l).getD (p.val - off) 0#8 else d[p] := by
  induction l generalizing d off with
  | nil => simp [writeSemis]
  | cons a l ih =>
    rw [writeSemis, ih, memWrite_getElem]
    simp only [Config.semiBytes, List.length_cons]
    rw [show join (a :: l) = semiBytesOf a ++ join l from rfl]
    by_cases h1 : p.val < off
    · rw [if_neg (by omega), if_neg (by omega), if_neg (by omega)]
    · by_cases h2 : p.val < off + 8
      · rw [if_neg (by omega), if_pos (by omega), if_pos (by omega),
          List.getD_append _ _ _ _ (by rw [semiBytesOf_length]; omega),
          semiBytesOf_getD _ _ (by omega)]
      · by_cases h3 : p.val < off + 8 * (l.length + 1)
        · rw [if_pos (by omega), if_pos (by omega),
            List.getD_append_right _ _ _ _ (by rw [semiBytesOf_length]; omega),
            semiBytesOf_length, Nat.sub_sub]
        · rw [if_neg (by omega), if_neg (by omega), if_neg (by omega)]

/-- Byte `p` of the delivered buffer: the byte of the join, zero above it. -/
theorem deliver_dout (e : Regs) (l : List Semiblock) (p : Fin 40) :
    (e.deliver l).dout[p] = (join l).getD p.val 0#8 := by
  show (clearFrom (writeSemis e.dout 0 l) (Config.semiBytes * l.length))[p] = _
  have h : (clearFrom (writeSemis e.dout 0 l) (Config.semiBytes * l.length))[p] =
      if p.val < 8 * l.length then (writeSemis e.dout 0 l)[p] else 0#8 := by
    simp [clearFrom, Config.semiBytes]
  rw [h, writeSemis_getElem]
  by_cases h : p.val < 8 * l.length
  · simp [h]
  · simp only [h, if_false]
    rw [List.getD, List.getElem?_eq_none (by rw [join_length]; omega)]; rfl

/-- A delivery leaves nothing but the result: every other register is at its reset value. -/
theorem deliver_eq (e : Regs) (l : List Semiblock) :
    e.deliver l = { Regs.reset with st := .done, res := .ok, olen := (e.deliver l).olen,
                                    dout := (e.deliver l).dout } := rfl

/-- A delivery in closed form. -/
theorem deliver_closed (e : Regs) (l : List Semiblock) :
    e.deliver l = { Regs.reset with st := .done, res := .ok, olen := BitVec.ofNat 8 (8 * l.length),
                                    dout := Vector.ofFn fun p => (join l).getD p.val 0#8 } := by
  have : (e.deliver l).dout = Vector.ofFn fun p => (join l).getD p.val 0#8 := by
    apply Vector.ext; intro i hi
    simpa using deliver_dout e l ⟨i, hi⟩
  rw [deliver_eq, this]; rfl

/-- A valid START.W latches a wrap call. -/
theorem startWrap_valid (e : Regs) (k d p) (h : valid .wrap k d = true) :
    e.startWrap k d p = e.load .wrap k p.kekbuf Config.iv (split (p.din.toList.take d) (k / 8)) 0#3 0#2 :=
  if_pos h

/-- A valid START.U latches an unwrap call. -/
theorem startUnwrap_valid (e : Regs) (k d p) (h : valid .unwrap k d = true) :
    e.startUnwrap k d p =
      e.load .unwrap k p.kekbuf ((split (p.din.toList.take d) (k / 8 + 1)).headD 0#64)
        (split (p.din.toList.take d) (k / 8 + 1)).tail 5#3 (BitVec.ofNat 2 (k / 8 - 1)) :=
  if_pos h

/-- An invalid START.W raises InvalidLength. -/
theorem startWrap_invalid (e : Regs) (k d p) (h : valid .wrap k d = false) :
    e.startWrap k d p = e.raise .invalidLength := by
  simp [Regs.startWrap, h]

/-- An invalid START.U raises InvalidLength. -/
theorem startUnwrap_invalid (e : Regs) (k d p) (h : valid .unwrap k d = false) :
    e.startUnwrap k d p = e.raise .invalidLength := by
  simp [Regs.startUnwrap, h]

/-- The register file after the latch. -/
theorem load_r (e : Regs) (dir k a l j i) (p : Vector Byte 32) (m : BitVec 2) :
    (e.load dir k p a l j i).readR m = l.getD m.toNat 0#64 := by
  simp [Regs.readR, Regs.load, registerFile]

end Sys2Proof.Machine
end

