-- ==== Sys2Proof/Laws/Step.lean ====
section
/-! SUPPORT. What `exec` and `step` can do, and what the invariant says in each sequencer state. -/

namespace Sys2Proof.Machine

/-! ### Each instruction where it is enabled -/

theorem exec_startW_ready (s : State) (k d p) (h : s.regs.st = .idle) :
    exec (.startW k d p) s = .next (s.setRegs (s.regs.startWrap k d p)) :=
  if_pos (by simp [Regs.cmdReady, h])

theorem exec_startU_ready (s : State) (k d p) (h : s.regs.st = .idle) :
    exec (.startU k d p) s = .next (s.setRegs (s.regs.startUnwrap k d p)) :=
  if_pos (by simp [Regs.cmdReady, h])

theorem exec_wstep_enabled (s : State) (h : s.regs.st = .run) (hd : s.regs.dir = .wrap) :
    exec .wstep s = .next ((s.logRequest s.regs.wrapRequest).setRegs (s.regs.wrapRound Config.blockCipher)) :=
  if_pos ⟨h, hd⟩

theorem exec_ustep_enabled (s : State) (h : s.regs.st = .run) (hd : s.regs.dir = .unwrap) :
    exec .ustep s = .next ((s.logRequest s.regs.unwrapRequest).setRegs (s.regs.unwrapRound Config.blockCipher)) :=
  if_pos ⟨h, hd⟩

theorem exec_wfin_enabled (s : State) (h : s.regs.st = .fin) (hd : s.regs.dir = .wrap) :
    exec .wfin s = .next (s.setRegs s.regs.wrapFinish) :=
  if_pos ⟨h, hd⟩

theorem exec_ufin_enabled (s : State) (h : s.regs.st = .fin) (hd : s.regs.dir = .unwrap) :
    exec .ufin s = .next (s.setRegs s.regs.unwrapFinish) :=
  if_pos ⟨h, hd⟩

theorem exec_ack_done (s : State) (x : BitVec 17) (h : s.regs.st = .done) :
    exec (.ack x) s = .next (s.setRegs s.regs.release) := if_pos (by simp [Regs.doneLevel, h])

theorem exec_read (s : State) : exec .read s = .next (s.logRead s.regs.readout) := rfl

theorem exec_reset (s : State) : exec .reset s = .next (s.setRegs Regs.reset) := rfl

/-! ### Inversion -/

/-- Everything an instruction can do: nothing, or the one effect it has where it is enabled. -/
theorem exec_cases (i : Instr) (s t : State) (h : exec i s = .next t) :
    t = s ∨
    (∃ k d p, i = .startW k d p ∧ s.regs.st = .idle ∧ t = s.setRegs (s.regs.startWrap k d p)) ∨
    (∃ k d p, i = .startU k d p ∧ s.regs.st = .idle ∧ t = s.setRegs (s.regs.startUnwrap k d p)) ∨
    (∃ x, i = .ack x ∧ s.regs.st = .done ∧ t = s.setRegs s.regs.release) ∨
    (i = .wstep ∧ s.regs.st = .run ∧ s.regs.dir = .wrap ∧
      t = (s.logRequest s.regs.wrapRequest).setRegs (s.regs.wrapRound Config.blockCipher)) ∨
    (i = .ustep ∧ s.regs.st = .run ∧ s.regs.dir = .unwrap ∧
      t = (s.logRequest s.regs.unwrapRequest).setRegs (s.regs.unwrapRound Config.blockCipher)) ∨
    (i = .wfin ∧ s.regs.st = .fin ∧ s.regs.dir = .wrap ∧ t = s.setRegs s.regs.wrapFinish) ∨
    (i = .ufin ∧ s.regs.st = .fin ∧ s.regs.dir = .unwrap ∧ t = s.setRegs s.regs.unwrapFinish) ∨
    (i = .read ∧ t = s.logRead s.regs.readout) ∨
    (i = .reset ∧ t = s.setRegs Regs.reset) := by
  cases i <;>
    simp only [exec, execStartW, execStartU, execAck, execWstep, execUstep, execWfin, execUfin, execRead, execReset,
      Regs.cmdReady, Regs.doneLevel, decide_eq_true_eq] at h <;>
    (try split at h) <;> cases h <;> simp_all

/-- The step of a turn that selects an instruction. -/
theorem step_of_ok (s : State) (i) (h : decode (nextStimulus s) = .ok i) : step s = exec i (takeTurn s) := by
  simp only [step, h]

/-- The step of a turn on which the engine waits. -/
theorem step_of_error (s : State) (x) (h : decode (nextStimulus s) = .error x) : step s = .next (takeTurn s) := by
  simp only [step, h]

/-- A run of one step more. -/
theorem core_run_step (M : Host.Core) (k : Nat) (s t : M.State) (h : M.step s = .next t) :
    M.run (k + 1) s = M.run k t := by
  simp only [Host.Core.run, h]

/-! ### The invariant, by sequencer state -/

theorem Regs.Inv.of_idle {e : Regs} (h : e.Inv) (hr : e.st = .idle) : e = Regs.reset := by
  simpa only [Regs.Inv, hr] using h

theorem Regs.Inv.of_run {e : Regs} (h : e.Inv) (hr : e.st = .run) : e.InCall := by
  simpa only [Regs.Inv, hr] using h

theorem Regs.Inv.of_fin {e : Regs} (h : e.Inv) (hr : e.st = .fin) : e.InCall ∧ e.AtLast := by
  simpa only [Regs.Inv, hr] using h

theorem Regs.Inv.of_done {e : Regs} (h : e.Inv) (hr : e.st = .done) : e.Delivered := by
  simpa only [Regs.Inv, hr] using h

theorem Regs.InCall.n_cases {e : Regs} (h : e.InCall) : (e.n.toNat = 2 ∨ e.n.toNat = 3 ∨ e.n.toNat = 4) := by
  rcases h.1 with h | h | h <;> simp [h]

end Sys2Proof.Machine
end

