-- ==== Sys2Proof/Laws/Driver.lean ====
section
/-! SUPPORT. What issuing an instruction does, and what a step of the driver can do. -/

namespace Sys2Proof.Machine

@[simp] theorem nextStimulus_presentStimulus (s : State) (x : Stimulus) (h : ∀ sel, x ≠ .selector sel) :
    nextStimulus (presentStimulus s x) = x := by
  cases x <;> first | rfl | exact absurd rfl (h _)

@[simp] theorem takeTurn_presentStimulus (s : State) (x : Stimulus) (h : ∀ sel, x ≠ .selector sel) :
    takeTurn (presentStimulus s x) = s := by
  cases x <;> first | rfl | exact absurd rfl (h _)

/-- What the host issues is what runs, if decoding gives it back; the turns to come stay. -/
theorem issue_of_ok (s : State) (i : Instr) (hx : ∀ sel, encode i ≠ .selector sel) (hd : decode (encode i) = .ok i) :
    issue s i = exec i s := by
  rw [issue, step_of_ok _ i (by rw [nextStimulus_presentStimulus _ _ hx, hd]), takeTurn_presentStimulus _ _ hx]

/-- No instruction reads the turns to come. -/
theorem exec_setInputs (i : Instr) (s t : State) (l : List Input) (h : exec i s = .next t) :
    exec i (s.setInputs l) = .next (t.setInputs l) := by
  cases i <;>
    simp only [exec, execStartW, execStartU, execAck, execWstep, execUstep, execWfin, execUfin, execRead, execReset,
      State.setInputs_regs] at h ⊢ <;>
    (try split at h) <;> cases h <;> first | rfl | exact if_pos ‹_› | exact if_neg ‹_›

theorem ApiCall.tooLong_iff (c : ApiCall) : c.tooLong = true ↔ 255 < c.kek.length ∨ 255 < c.data.length := by
  simp only [ApiCall.tooLong, decide_eq_true_eq]

/-- The START of a call that is not too long is well formed. -/
theorem ApiCall.start_wf (c : ApiCall) (h : c.tooLong = false) : c.start.wf = true := by
  rcases c with ⟨_ | _, d, k, r⟩ <;>
    simp only [ApiCall.tooLong, ApiCall.start, Instr.wf, lengthFits, decide_eq_false_iff_not, Bool.and_eq_true,
      decide_eq_true_eq] at h ⊢ <;> omega

theorem driver_step (c : ApiCall) (s : Session) : (driver c).step s = driverStep c s := rfl

/-- Everything a step of the driver can do. -/
theorem driverStep_cases (c : ApiCall) (s t : Session) (h : driverStep c s = .next t) :
    (s.phase = .entry ∧ t.machine = s.machine ∧
      t.phase = if c.tooLong then .returned (some (.error .invalidLength)) else .waitReady) ∨
    (s.phase = .waitReady ∧ s.machine.regs.st = .idle ∧ issue s.machine c.start = .next t.machine ∧ t.phase = .waitDone) ∨
    (s.phase = .waitDone ∧ s.machine.regs.st = .done ∧ issue s.machine .read = .next t.machine ∧
      t.phase = .acknowledge t.machine.lastRead) ∨
    ((s.phase = .waitReady ∧ s.machine.regs.st ≠ .idle ∨ s.phase = .waitDone ∧ s.machine.regs.st ≠ .done) ∧
      step s.machine = .next t.machine ∧ t.phase = s.phase) ∨
    (∃ x, s.phase = .acknowledge x ∧ issue s.machine (.ack 0#17) = .next t.machine ∧ t.phase = .returned x.result) ∨
    (∃ r, s.phase = .returned r ∧ t = s) := by
  have key : ∀ o f, Session.andThen o f = .next t → o = .next t.machine ∧ t.phase = f t.machine := by
    intro o f ho
    cases o <;> cases ho
    exact ⟨rfl, rfl⟩
  rcases s with ⟨m, _ | _ | _ | _ | _⟩ <;>
    simp only [driverStep, Regs.cmdReady, Regs.doneLevel, decide_eq_true_eq] at h <;>
    (try split at h) <;>
    first
    | (cases h; simp_all; done)
    | (have := key _ _ h; simp_all)

end Sys2Proof.Machine
end

