-- ==== Sys2Proof/Laws/PerInstr.lean ====
section
/-! SUPPORT. Statements about every instruction, one lemma per constructor. -/

namespace Sys2Proof.Laws.EncodingMatchesTable

open Sys2Proof Sys2Proof.Machine

/-- The encoded object of an instruction is of the format of its row of spec/opcode_table.json, and its bits under
the row's mask are the row's match. -/
def Statement (i : Instr) : Prop := i.row.fits (encode i) = true

/-- The two top bits of a START word under the START rows' mask. -/
theorem startWord_masked (d : BitVec 1) (k l : Nat) :
    startWord d k l &&& 0x30000#18 = BitVec.setWidth 18 d <<< 16 := by
  apply BitVec.eq_of_getLsbD_eq
  intro i hi
  rw [BitVec.getLsbD_and, startWord_getLsbD]
  have hd : d = 0#1 ∨ d = 1#1 := by
    rcases Nat.lt_or_ge d.toNat 1 with h | h
    · exact .inl (BitVec.eq_of_toNat_eq (by simp; omega))
    · exact .inr (BitVec.eq_of_toNat_eq (by simp; omega))
  by_cases h : i < 16
  · have : (0x30000#18).getLsbD i = false := by
      interval_cases i <;> rfl
    rw [this]
    rcases hd with rfl | rfl <;> interval_cases i <;> simp
  · have : i = 16 ∨ i = 17 := by omega
    rcases this with rfl | rfl <;> rcases hd with rfl | rfl <;> rfl

theorem startW (klen dlen : Nat) (pay : Payload) : Statement (.startW klen dlen pay) := by
  show decide (RowFormat.hc = .hc ∧ startWord 0#1 klen dlen &&& 0x30000#18 = 0x00000#18) = true
  rw [startWord_masked]; rfl

theorem startU (klen dlen : Nat) (pay : Payload) : Statement (.startU klen dlen pay) := by
  show decide (RowFormat.hc = .hc ∧ startWord 1#1 klen dlen &&& 0x30000#18 = 0x10000#18) = true
  rw [startWord_masked]; rfl

theorem ack (ignored : BitVec 17) : Statement (.ack ignored) := by
  show decide (RowFormat.hc = .hc ∧ ackWord ignored &&& 0x20000#18 = 0x20000#18) = true
  rw [decide_eq_true_eq]
  refine ⟨rfl, ?_⟩
  apply BitVec.eq_of_getLsbD_eq
  intro i hi
  rw [BitVec.getLsbD_and, ackWord_getLsbD]
  by_cases h : i < 17
  · have : (0x20000#18).getLsbD i = false := by interval_cases i <;> rfl
    rw [this]; simp
  · have : i = 17 := by omega
    subst this; rfl

theorem wstep : Statement .wstep := by unfold Statement; decide

theorem ustep : Statement .ustep := by unfold Statement; decide

theorem wfin : Statement .wfin := by unfold Statement; decide

theorem ufin : Statement .ufin := by unfold Statement; decide

theorem read : Statement .read := by unfold Statement; decide

theorem reset : Statement .reset := by unfold Statement; decide

end Sys2Proof.Laws.EncodingMatchesTable
end

