-- ==== Sys2Proof/Machine/Script.lean ====
section
/-! DEFINITION. The one-line script syntax of 30_encoding.md rule R106, in which host scripts and traces are written.
Presentation only (92_eei_decisions.md D17): nothing in the machine reads it. -/

namespace Sys2Proof.Machine

/-- A hex digit, upper case. -/
def hexDigit (n : Nat) : Char := Char.ofNat (if n < 10 then 48 + n else 55 + n)

/-- Two digits for a byte. -/
def hexByte (b : Byte) : String := String.ofList [hexDigit (b.toNat / 16), hexDigit (b.toNat % 16)]

/-- A hex byte string: offset 0 first, two digits per byte. -/
def hexBytes : List Byte → String
  | [] => ""
  | b :: rest => hexByte b ++ hexBytes rest

/-- The operands of a START line; of each buffer the bytes its length counts. -/
def startOperands (klen dlen : Nat) (pay : Payload) : String :=
  " klen=" ++ toString klen ++ " dlen=" ++ toString dlen ++ " kek=" ++ hexBytes (pay.kekbuf.toList.take klen) ++
    " din=" ++ hexBytes (pay.din.toList.take dlen)

/-- The line of an operation. The ACK of a script has no operand: the ignored bits are not written. -/
def scriptLine : Instr → String
  | .startW klen dlen pay => "START.W" ++ startOperands klen dlen pay
  | .startU klen dlen pay => "START.U" ++ startOperands klen dlen pay
  | .ack _ => "ACK"
  | .wstep => "WSTEP"
  | .ustep => "USTEP"
  | .wfin => "WFIN"
  | .ufin => "UFIN"
  | .read => "READ"
  | .reset => "RESET"

/-- What stands behind a READ in a trace; the status word as three hex digits after 0x, as 95_test_vectors.md
writes it. -/
def readReply (x : Readout) : String :=
  "-> status=0x" ++ String.ofList [hexDigit (x.status.toNat / 256), hexDigit (x.status.toNat / 16 % 16),
    hexDigit (x.status.toNat % 16)] ++ " dout=" ++ hexBytes x.dout.toList

end Sys2Proof.Machine
end

