-- ==== Sys2Proof/Tests/Slice0.lean ====
section
/-! SUPPORT. Checks of the model against figures of the spec, ill-formed terms refused, words written out bit by bit,
and for every statement with hypotheses a witness that meets them. Each expected figure is the spec's; a comment says
where it stands. -/

namespace Sys2Proof.Tests

open Sys2Proof Sys2Proof.Machine

/-! ### Small states and ciphers -/

/-- `IDENT` of 95_test_vectors.md section 6. -/
def ident : BlockCipher := { enc := fun _ b => b, dec := fun _ b => b }

/-- The first 16 bytes of a KEK as a block. -/
def kekBlock (kek : Kek) : Block := memRead kek.kb 0 16

/-- `TOY` of 95_test_vectors.md section 6. -/
def toy : BlockCipher :=
  { enc := fun kek b => (b ^^^ kekBlock kek).rotateLeft 8, dec := fun kek b => b.rotateRight 8 ^^^ kekBlock kek }

/-- A cipher given by the pairs of blocks of a table of the spec, zero elsewhere. -/
def tableCipher (l : List (Block × Block)) : BlockCipher :=
  { enc := fun _ b => ((l.find? fun p => p.1 == b).map (·.2)).getD 0
    dec := fun _ b => ((l.find? fun p => p.2 == b).map (·.1)).getD 0 }

/-- The cipher column of the wrap of V1 (95_test_vectors.md section 2). -/
def aesV1 : BlockCipher := tableCipher
  [ (0xA6A6A6A6A6A6A6A60011223344556677#128, 0xF4740052E82A225174CE86FBD7B805E7#128),
    (0xF4740052E82A22508899AABBCCDDEEFF#128, 0x06BA4EBDE7768D0BD132EE38147E76F8#128),
    (0x06BA4EBDE7768D0974CE86FBD7B805E7#128, 0xFC967627BE937208FE6E8D679C5D3460#128),
    (0xFC967627BE93720BD132EE38147E76F8#128, 0x5896EA9028EE203B07B2BD973E36A6FC#128),
    (0x5896EA9028EE203FFE6E8D679C5D3460#128, 0x93AEA71B258D90C325F5A3ADC2195401#128),
    (0x93AEA71B258D90C607B2BD973E36A6FC#128, 0xE3EE986344D878F7F14863BB1E9CA90A#128),
    (0xE3EE986344D878F125F5A3ADC2195401#128, 0x2BFC21B2C20E4006B556D35ED8CEF052#128),
    (0x2BFC21B2C20E4001F14863BB1E9CA90A#128, 0x4BE8CE99C0A43A7D64BAE5818D0570BB#128),
    (0x4BE8CE99C0A43A75B556D35ED8CEF052#128, 0xEBE1CE91067024F3BE114B343EB00981#128),
    (0xEBE1CE91067024FA64BAE5818D0570BB#128, 0x5A9C7B1F5B1C3B464FD3D2B7D74FBB42#128),
    (0x5A9C7B1F5B1C3B4CBE114B343EB00981#128, 0x93B71967EED41FFCAEF34BD8FB5A7B82#128),
    (0x93B71967EED41FF74FD3D2B7D74FBB42#128, 0x1FA68B0A8112B44B9D3E862371D2CFE5#128) ]

/-- The cipher column of the wrap of V2 (95_test_vectors.md section 5). -/
def aesV2 : BlockCipher := tableCipher
  [ (0xA6A6A6A6A6A6A6A60011223344556677#128, 0xDFE8FD5D1A3786A7351D385096CCFB29#128),
    (0xDFE8FD5D1A3786A68899AABBCCDDEEFF#128, 0x9D9B32B9ED742E0251F22F3286758A2D#128),
    (0x9D9B32B9ED742E000001020304050607#128, 0x2C8E19A519025B7CFF540E514DE120A3#128),
    (0x2C8E19A519025B7F351D385096CCFB29#128, 0xE727C7BDF822602EA08DAA041D17BBBA#128),
    (0xE727C7BDF822602A51F22F3286758A2D#128, 0x15B61F7B25D51700AE82BC1118A5DEA4#128),
    (0x15B61F7B25D51705FF540E514DE120A3#128, 0xA187755AEA64719CD1E708FD13778787#128),
    (0xA187755AEA64719AA08DAA041D17BBBA#128, 0x5A994895D81644B7926ED65A9E853FD9#128),
    (0x5A994895D81644B0AE82BC1118A5DEA4#128, 0x864F408C8AB8CDCF552A09E141D08AE3#128),
    (0x864F408C8AB8CDC7D1E708FD13778787#128, 0x53F4373F575EB7A4ED5E8456E61BD295#128),
    (0x53F4373F575EB7AD926ED65A9E853FD9#128, 0x9EAA4CDA0B1BA5FF98883EDC6B080FB5#128),
    (0x9EAA4CDA0B1BA5F5552A09E141D08AE3#128, 0xB1B9902C68E0EB5263F6D88A0663FEF9#128),
    (0xB1B9902C68E0EB59ED5E8456E61BD295#128, 0xFCE591D77709A6E0463437433A93EFE5#128),
    (0xFCE591D77709A6EC98883EDC6B080FB5#128, 0x428428D2BD88CF58C46965F34EFB2261#128),
    (0x428428D2BD88CF5563F6D88A0663FEF9#128, 0x6AC861AB961DA57856E3CEE892BBEFC4#128),
    (0x6AC861AB961DA576463437433A93EFE5#128, 0xE80DB49CC9A1EA6184943C8C67FCFD53#128),
    (0xE80DB49CC9A1EA6EC46965F34EFB2261#128, 0xABEE3534AC465C2C68F24EC260743EDC#128),
    (0xABEE3534AC465C3C56E3CEE892BBEFC4#128, 0xE7CC8D8CEDE62BF7E1C6C7DDEE725A93#128),
    (0xE7CC8D8CEDE62BE684943C8C67FCFD53#128, 0x031D33264E15D3206BA814915C6762D2#128) ]

/-- The key of V1. -/
def key16 : List Byte :=
  [0x00, 0x11, 0x22, 0x33, 0x44, 0x55, 0x66, 0x77, 0x88, 0x99, 0xAA, 0xBB, 0xCC, 0xDD, 0xEE, 0xFF]

/-- The KEK of V1. -/
def kek16 : List Byte :=
  [0x00, 0x01, 0x02, 0x03, 0x04, 0x05, 0x06, 0x07, 0x08, 0x09, 0x0A, 0x0B, 0x0C, 0x0D, 0x0E, 0x0F]

/-- The wrapped buffer of V1. -/
def wrapped16 : List Byte :=
  [0x1F, 0xA6, 0x8B, 0x0A, 0x81, 0x12, 0xB4, 0x47, 0xAE, 0xF3, 0x4B, 0xD8, 0xFB, 0x5A, 0x7B, 0x82, 0x9D, 0x3E,
  0x86, 0x23, 0x71, 0xD2, 0xCF, 0xE5]

/-- The key of V2. -/
def key24 : List Byte :=
  [0x00, 0x11, 0x22, 0x33, 0x44, 0x55, 0x66, 0x77, 0x88, 0x99, 0xAA, 0xBB, 0xCC, 0xDD, 0xEE, 0xFF, 0x00, 0x01,
  0x02, 0x03, 0x04, 0x05, 0x06, 0x07]

/-- The KEK of V2. -/
def kek24 : List Byte :=
  [0x00, 0x01, 0x02, 0x03, 0x04, 0x05, 0x06, 0x07, 0x08, 0x09, 0x0A, 0x0B, 0x0C, 0x0D, 0x0E, 0x0F, 0x10, 0x11,
  0x12, 0x13, 0x14, 0x15, 0x16, 0x17]

/-- The wrapped buffer of V2. -/
def wrapped24 : List Byte :=
  [0x03, 0x1D, 0x33, 0x26, 0x4E, 0x15, 0xD3, 0x32, 0x68, 0xF2, 0x4E, 0xC2, 0x60, 0x74, 0x3E, 0xDC, 0xE1, 0xC6,
  0xC7, 0xDD, 0xEE, 0x72, 0x5A, 0x93, 0x6B, 0xA8, 0x14, 0x91, 0x5C, 0x67, 0x62, 0xD2]

/-- The key of 95_test_vectors.md section 6.1, n = 4. -/
def key32 : List Byte :=
  [0x10, 0x11, 0x12, 0x13, 0x14, 0x15, 0x16, 0x17, 0x18, 0x19, 0x1A, 0x1B, 0x1C, 0x1D, 0x1E, 0x1F, 0x20, 0x21,
  0x22, 0x23, 0x24, 0x25, 0x26, 0x27, 0x28, 0x29, 0x2A, 0x2B, 0x2C, 0x2D, 0x2E, 0x2F]

/-- A machine with the given registers, no turn to come. -/
def machine (e : Regs) : State := { regs := e, inputs := [], requests := [], reads := [] }

/-- The registers of a call in progress: n semiblocks, a position, any `A` and key semiblocks, a KEK of zero bytes. -/
def call (st : Seq) (dir : Dir) (n : Nat) (j : BitVec 3) (i : BitVec 2) (a : Semiblock) (r : List Semiblock) : Regs :=
  { Regs.reset with
    st := st, dir := dir, n := BitVec.ofNat 3 n, klenr := BitVec.ofNat 8 (8 * n), j := j, i := i, a := a,
    r := registerFile r }

/-- The registers with a result. -/
def result (res : Res) (olen : BitVec 8) (dout : List Byte) : Regs :=
  { Regs.reset with st := .done, res := res, olen := olen, dout := Vector.ofFn fun p => dout.getD p.val 0#8 }

/-- An API call with zero bytes in the payload beyond its arguments. -/
def apiCall (dir : Dir) (data kek : List Byte) : ApiCall := { dir := dir, data := data, kek := kek, rest := Payload.zero }

/-- The registers of a next state; the reset registers where there is none. -/
def regsAfter (o : Host.Outcome State Fault Refusal) : Regs :=
  match o with
  | .next t => t.regs
  | .fault _ => Regs.reset
  | .refused _ => Regs.reset

/-! ### Well-formedness: each check refuses an ill-formed term -/

theorem test_wf_refuses_wide_klen_of_startW : (Instr.startW 256 16 Payload.zero).wf = false := by decide

theorem test_wf_refuses_wide_dlen_of_startW : (Instr.startW 16 256 Payload.zero).wf = false := by decide

theorem test_wf_refuses_wide_klen_of_startU : (Instr.startU 300 24 Payload.zero).wf = false := by decide

theorem test_wf_refuses_wide_dlen_of_startU : (Instr.startU 16 300 Payload.zero).wf = false := by decide

/-! ### Decoding: words written out bit by bit from 30_encoding.md rules R92 to R95 and R100 -/

theorem test_decode_startW_word (p : Payload) : decode (.command 0b00_00010000_00010000#18 p) = .ok (.startW 16 16 p) := by
  rfl

theorem test_decode_startW_fields_in_order (p : Payload) :
    decode (.command 0b00_00100000_11111111#18 p) = .ok (.startW 32 255 p) := by
  rfl

theorem test_decode_startU_word (p : Payload) : decode (.command 0b01_00011000_00100000#18 p) = .ok (.startU 24 32 p) := by
  rfl

theorem test_decode_ack_word (p : Payload) : decode (.command 0b1_00000000000000000#18 p) = .ok (.ack 0#17) := by
  rfl

theorem test_decode_ack_ignores_its_other_bits (p : Payload) :
    decode (.command 0b1_11111111111111111#18 p) = .ok (.ack 0x1FFFF#17) := by
  rfl

theorem test_decode_selectors :
    decode (.selector 0b000#3) = .error .waitsForStart ∧ decode (.selector 0b001#3) = .error .waitsForStart ∧
    decode (.selector 0b010#3) = .ok .wstep ∧ decode (.selector 0b011#3) = .ok .ustep ∧
    decode (.selector 0b100#3) = .ok .wfin ∧ decode (.selector 0b101#3) = .ok .ufin ∧
    decode (.selector 0b110#3) = .error .waitsForAck ∧ decode (.selector 0b111#3) = .error .waitsForAck := by
  refine ⟨rfl, rfl, rfl, rfl, rfl, rfl, rfl, rfl⟩

theorem test_decode_read_and_reset : decode .readPort = .ok .read ∧ decode .resetLine = .ok .reset := ⟨rfl, rfl⟩

theorem test_encode_words :
    startWord 0#1 32 32 = 0x02020#18 ∧ startWord 1#1 16 24 = 0x11018#18 ∧ startWord 1#1 255 7 = 0x1FF07#18 ∧
    ackWord 0x1FFFF#17 = 0x3FFFF#18 := by decide

theorem test_table_rows_do_not_overlap : opcodeTable.Pairwise (fun r q => r.overlap q = false) := by decide

/-- The words of the table, as the host numbers them: the command rows have 18 bits in 3 bytes, the selector rows 3
bits in 1 byte, and a word with a bit above its format is none. -/
theorem test_table_words :
    decodeTableWord 24 0x00000 = some (.startW 0 0 Payload.zero) ∧
    decodeTableWord 24 0x11018 = some (.startU 16 24 Payload.zero) ∧
    decodeTableWord 24 0x20000 = some (.ack 0#17) ∧ decodeTableWord 8 2 = some .wstep ∧
    decodeTableWord 8 3 = some .ustep ∧ decodeTableWord 8 4 = some .wfin ∧ decodeTableWord 8 5 = some .ufin ∧
    decodeTableWord 8 6 = none ∧ decodeTableWord 8 8 = none ∧ decodeTableWord 24 0x40000 = none := by decide

/-- The next step of a machine with a table word in place runs its instruction. -/
theorem test_withFetchWord_startW :
    (regsAfter (step (State.reset.withFetchWord 24 0x01010))).st = .run ∧
    (regsAfter (step (State.reset.withFetchWord 24 0x01414))).status = 0x00B#12 := by decide

theorem test_withFetchWord_wfin : (regsAfter (step (State.reset.withFetchWord 8 4))).st = .done := by decide

/-- The line of step 1 of 95_test_vectors.md P1. -/
theorem test_script_line_of_startW :
    scriptLine (.startW 16 16 (payloadOf Payload.zero key16 kek16)) =
      "START.W klen=16 dlen=16 kek=000102030405060708090A0B0C0D0E0F din=00112233445566778899AABBCCDDEEFF" := by
  decide

/-! ### The pipeline and the counter (95_test_vectors.md section 7) -/

theorem test_split : split key16 2 = [0x0011223344556677#64, 0x8899AABBCCDDEEFF#64] := by decide

theorem test_join : join [0x0011223344556677#64, 0x8899AABBCCDDEEFF#64] = key16 := by decide

theorem test_cat_hi_lo :
    cat 0xA6A6A6A6A6A6A6A6#64 0x0011223344556677#64 = 0xA6A6A6A6A6A6A6A60011223344556677#128 ∧
    hi 0xF4740052E82A225174CE86FBD7B805E7#128 = 0xF4740052E82A2251#64 ∧
    lo 0xF4740052E82A225174CE86FBD7B805E7#128 = 0x74CE86FBD7B805E7#64 := by decide

theorem test_bytes_of_a_semiblock :
    semiByte 0x0011223344556677#64 0 = 0x00#8 ∧ semiByte 0x0011223344556677#64 7 = 0x77#8 := by decide

theorem test_counter : ctr 2 0 0 = 1 ∧ ctr 3 4 2 = 15 ∧ ctr 4 1 0 = 5 ∧ ctr 4 5 3 = 24 := by decide

theorem test_be64 :
    semiBytesOf (be64 256) = [0, 0, 0, 0, 0, 0, 1, 0] ∧
    semiBytesOf (be64 0x0102030405060708) = [1, 2, 3, 4, 5, 6, 7, 8] := by decide

theorem test_xorCtr :
    xorCtr 0xF4740052E82A2251#64 1 = 0xF4740052E82A2250#64 ∧
    xorCtr 0x28C9F404C4B810EC#64 24 = 0x28C9F404C4B810F4#64 := by decide

/-- Rows of 95_test_vectors.md section 7.4. -/
theorem test_valid_rows :
    valid .wrap 16 16 = true ∧ valid .unwrap 32 40 = true ∧ valid .wrap 20 20 = false ∧ valid .wrap 8 8 = false ∧
    valid .unwrap 16 16 = false ∧ valid .unwrap 255 7 = false := by decide

/-! ### One instruction at a time -/

/-- The example of 42_wrap.md rule R161. -/
theorem test_startW_loads :
    let e := regsAfter (exec (.startW 16 16 (payloadOf Payload.zero key16 kek16)) State.reset)
    e.a = 0xA6A6A6A6A6A6A6A6#64 ∧ e.readR 0#2 = 0x0011223344556677#64 ∧ e.readR 1#2 = 0x8899AABBCCDDEEFF#64 ∧
    e.readR 2#2 = 0#64 ∧ e.n = 2#3 ∧ e.st = .run := by decide

/-- The example of 42_wrap.md rule R162. -/
theorem test_startW_invalid : (regsAfter (exec (.startW 20 20 Payload.zero) State.reset)).status = 0x00B#12 := by
  decide

/-- The example of 43_unwrap.md rule R181. -/
theorem test_startU_loads :
    let e := regsAfter (exec (.startU 16 24 (payloadOf Payload.zero wrapped16 kek16)) State.reset)
    e.a = 0x1FA68B0A8112B447#64 ∧ e.readR 0#2 = 0xAEF34BD8FB5A7B82#64 ∧ e.readR 1#2 = 0x9D3E862371D2CFE5#64 ∧
    e.j = 5#3 ∧ e.i = 1#2 ∧ e.dir = .unwrap := by decide

/-- The example of 43_unwrap.md rule R182. -/
theorem test_startU_invalid : (regsAfter (exec (.startU 16 16 Payload.zero) State.reset)).status = 0x00B#12 := by
  decide

/-- The example of 42_wrap.md rule R163. -/
theorem test_wstep_first_of_V1 :
    let e := (call .run .wrap 2 0#3 0#2 0xA6A6A6A6A6A6A6A6#64
      [0x0011223344556677#64, 0x8899AABBCCDDEEFF#64]).wrapRound aesV1
    e.a = 0xF4740052E82A2250#64 ∧ e.readR 0#2 = 0x74CE86FBD7B805E7#64 ∧ e.readR 1#2 = 0x8899AABBCCDDEEFF#64 ∧
    e.j = 0#3 ∧ e.i = 1#2 ∧ e.st = .run := by decide

/-- The last row of 95_test_vectors.md section 2: t = 12, and the position stays. -/
theorem test_wstep_last_of_V1 :
    let e := (call .run .wrap 2 5#3 1#2 0x93B71967EED41FF7#64
      [0xAEF34BD8FB5A7B82#64, 0x4FD3D2B7D74FBB42#64]).wrapRound aesV1
    e.a = 0x1FA68B0A8112B447#64 ∧ e.readR 1#2 = 0x9D3E862371D2CFE5#64 ∧ e.j = 5#3 ∧ e.i = 1#2 ∧ e.st = .fin := by
  decide

/-- The example of 43_unwrap.md rule R183. -/
theorem test_ustep_first_of_V1 :
    let e := (call .run .unwrap 2 5#3 1#2 0x1FA68B0A8112B447#64
      [0xAEF34BD8FB5A7B82#64, 0x9D3E862371D2CFE5#64]).unwrapRound aesV1
    e.a = 0x93B71967EED41FF7#64 ∧ e.readR 1#2 = 0x4FD3D2B7D74FBB42#64 ∧ e.j = 5#3 ∧ e.i = 0#2 ∧ e.st = .run := by
  decide

/-- From the first position of a round to the last of the one before: `I` becomes N-1. -/
theorem test_ustep_moves_to_the_round_before :
    let e := (call .run .unwrap 4 3#3 0#2 0#64 []).unwrapRound ident
    e.j = 2#3 ∧ e.i = 3#2 ∧ e.st = .run := by decide

/-- The example of 42_wrap.md rule R165. -/
theorem test_wfin_delivers :
    let e := (call .fin .wrap 2 5#3 1#2 0x1FA68B0A8112B447#64
      [0xAEF34BD8FB5A7B82#64, 0x9D3E862371D2CFE5#64]).wrapFinish
    e.dout.toList = wrapped16 ++ List.replicate 16 0#8 ∧ e.status = 0x187#12 ∧ e.a = 0#64 := by decide

/-- The example of 43_unwrap.md rule R186. -/
theorem test_ufin_delivers :
    let e := (call .fin .unwrap 2 0#3 0#2 0xA6A6A6A6A6A6A6A6#64
      [0x0011223344556677#64, 0x8899AABBCCDDEEFF#64]).unwrapFinish
    e.dout.toList = key16 ++ List.replicate 24 0#8 ∧ e.status = 0x107#12 := by decide

/-- The forged buffer of 43_unwrap.md rule R186. -/
theorem test_ufin_refuses :
    let e := (call .fin .unwrap 2 0#3 0#2 0xECC2839D214839B6#64
      [0xD09FDD8C6D2466A1#64, 0x7BBC3ECA1DDF9FBF#64]).unwrapFinish
    e.dout.toList = List.replicate 40 0#8 ∧ e.status = 0x00F#12 ∧ e.r.toList = List.replicate 4 0#64 := by
  decide

/-- The example of 44_host.md rule R202. -/
theorem test_ack_clears :
    let e := regsAfter (exec (.ack 5#17) (machine (result .ok 24#8 wrapped16)))
    (result .ok 24#8 wrapped16).status = 0x187#12 ∧ e = Regs.reset := by decide

/-- Step 6 of 95_test_vectors.md P4: an ACK while the call runs changes nothing. -/
theorem test_ack_not_done :
    exec (.ack 0#17) (machine (call .run .wrap 2 1#3 1#2 7#64 [])) =
      .next (machine (call .run .wrap 2 1#3 1#2 7#64 [])) := by rfl

/-- Step 7 of 95_test_vectors.md P4: a READ in RUN shows nothing of the call. -/
theorem test_read_while_running :
    (call .run .wrap 2 1#3 1#2 0xA6A3A4A1A2088513#64 [0x213243546576A9A5#64]).readout =
      { status := 0x001#12, dout := Vector.replicate 40 0#8 } := by decide

/-- Step 9 of 95_test_vectors.md P4. -/
theorem test_reset_abandons_a_call :
    exec .reset (machine (call .run .wrap 2 2#3 0#2 7#64 [1#64])) = .next State.reset := by rfl

/-- 44_host.md rule R208: a KEK of 256 bytes returns InvalidLength and the machine is not touched. -/
theorem test_driver_returns_InvalidLength :
    (driver (apiCall .wrap key16 (List.replicate 256 0#8))).step { machine := State.reset, phase := .entry } =
      .next { machine := State.reset, phase := .returned (some (.error .invalidLength)) : Session } := by
  simp only [driver, driverStep, ApiCall.tooLong, apiCall, List.length_replicate]
  rfl

/-- 44_host.md rule R208: on a busy engine the driver waits and the call in progress goes on. -/
theorem test_driver_waits_for_the_call_in_progress :
    (driver (apiCall .wrap key16 kek16)).step
        { machine := machine (call .fin .wrap 2 5#3 1#2 1#64 []), phase := .waitReady } =
      .next { machine := machine (call .fin .wrap 2 5#3 1#2 1#64 []).wrapFinish, phase := .waitReady : Session } := by
  rfl

/-! ### Whole calls, at the function level -/

/-- V1 of DOC section 8 (95_test_vectors.md section 1). -/
theorem test_V1_wrap : docWrap aesV1 key16 kek16 = .ok wrapped16 := by decide +kernel

theorem test_V1_unwrap : docUnwrap aesV1 wrapped16 kek16 = .ok key16 := by decide +kernel

/-- V2 of DOC section 8 (95_test_vectors.md section 1). -/
theorem test_V2_wrap : docWrap aesV2 key24 kek24 = .ok wrapped24 := by decide +kernel

theorem test_V2_unwrap : docUnwrap aesV2 wrapped24 kek24 = .ok key24 := by decide +kernel

/-- 95_test_vectors.md section 6.2. -/
theorem test_toy_wrap :
    docWrap toy key16 kek16 = .ok
      [0x2C, 0xA6, 0x37, 0xB3, 0x45, 0xCB, 0x58, 0xD0, 0x61, 0x76, 0xAD, 0xA5, 0xAE, 0xA0, 0x06, 0x13, 0xE9, 0xFE,
      0xAC, 0xA6, 0xAB, 0xA7, 0x8D, 0x9C] := by decide +kernel

/-- 95_test_vectors.md section 6.4: TOY accepts a forgery, so no rule may assume that every change is refused. -/
theorem test_toy_accepts_a_forgery :
    docUnwrap toy
      [0x2C, 0xA6, 0x37, 0xB3, 0x45, 0xCB, 0x58, 0xD0, 0x61, 0x76, 0xAD, 0xA5, 0xAE, 0xA0, 0x06, 0x13, 0xE9, 0xFE,
      0xAC, 0xA6, 0xAB, 0xA7, 0x8D, 0x9D] kek16 = .ok
      [0x00, 0x11, 0x22, 0x33, 0x44, 0x55, 0x66, 0x77, 0x88, 0x98, 0xAA, 0xBB, 0xCC, 0xDD, 0xEE, 0xFF] := by decide +kernel

/-- 95_test_vectors.md section 6.1, n = 4. -/
theorem test_ident_wrap_of_four_semiblocks :
    docWrap ident key32 (List.replicate 32 0#8) = .ok
      ([0xA6, 0xA6, 0xA6, 0xA6, 0xA6, 0xA6, 0xA6, 0xBE] ++ key32) := by decide +kernel

/-- DOC section 8: a KEK of 20 bytes raises InvalidLength. -/
theorem test_kek_of_twenty_bytes :
    docWrap ident (List.replicate 20 0#8) (List.replicate 20 0#8) = .error .invalidLength := by decide

/-! ### Witnesses: for every statement with hypotheses, values that meet them, at the boundaries of its clauses -/

/-- The identity cipher meets `BC_INV`. -/
theorem ident_bcInv : ident.BcInv := fun _ _ _ => ⟨rfl, rfl⟩

/-- A wrap at its first position, at the end of a round, at the end of the fifth round and at its last. -/
theorem inv_of_running_wraps :
    (call .run .wrap 2 0#3 0#2 1#64 []).Inv ∧ (call .run .wrap 2 4#3 1#2 1#64 []).Inv ∧
    (call .run .wrap 4 5#3 3#2 1#64 []).Inv := by
  refine ⟨?_, ?_, ?_⟩ <;> (show Regs.InCall _; decide)

/-- An unwrap at its first position, at the start of a round and at its last. -/
theorem inv_of_running_unwraps :
    (call .run .unwrap 4 5#3 3#2 1#64 []).Inv ∧ (call .run .unwrap 3 1#3 0#2 1#64 []).Inv ∧
    (call .run .unwrap 2 0#3 0#2 1#64 []).Inv := by
  refine ⟨?_, ?_, ?_⟩ <;> (show Regs.InCall _; decide)

theorem inv_of_finishing_calls :
    (call .fin .wrap 2 5#3 1#2 1#64 []).Inv ∧ (call .fin .wrap 4 5#3 3#2 1#64 []).Inv ∧
    (call .fin .unwrap 2 0#3 0#2 Config.iv []).Inv ∧ (call .fin .unwrap 4 0#3 0#2 1#64 []).Inv := by
  refine ⟨⟨?_, rfl, rfl⟩, ⟨?_, rfl, rfl⟩, ⟨?_, rfl, rfl⟩, ⟨?_, rfl, rfl⟩⟩ <;> decide

theorem inv_of_results :
    (result .ok 16#8 key16).Inv ∧ (result .ok 40#8 (key32 ++ [1, 2, 3, 4, 5, 6, 7, 8])).Inv ∧
    (result .invalidLength 0#8 []).Inv ∧ (result .authFailure 0#8 []).Inv := by
  refine ⟨?_, ?_, ?_, ?_⟩ <;> (show Regs.Delivered _; decide)

theorem witness_DecodeOfEncodeIsTheInstruction :
    (Instr.startW 255 0 Payload.zero).wf = true ∧ (Instr.startU 0 255 Payload.zero).wf = true ∧
    (Instr.ack 0x1FFFF#17).wf = true ∧ Instr.wstep.wf = true ∧ Instr.read.wf = true := by decide

theorem witness_EveryCommandWordDecodes :
    (0x3FFFF#18).getLsbD 17 = true ∧ ((0x0FFFF#18).getLsbD 17 = false ∧ (0x0FFFF#18).getLsbD 16 = false) ∧
    ((0x10000#18).getLsbD 17 = false ∧ (0x10000#18).getLsbD 16 = true) := by decide

theorem witness_SelectorNamesTheEnabledStep :
    (call .run .wrap 2 0#3 0#2 1#64 []).sel = 0b010#3 ∧ (call .run .unwrap 2 0#3 0#2 1#64 []).sel = 0b011#3 ∧
    (call .fin .wrap 2 0#3 0#2 1#64 []).sel = 0b100#3 ∧ (call .fin .unwrap 2 0#3 0#2 1#64 []).sel = 0b101#3 ∧
    Regs.reset.st = .idle ∧ (result .invalidLength 0#8 []).st = .done := by decide

theorem witness_ExactlySixCommandWordsAreValid :
    (0x02020#18).getLsbD 17 = false ∧ valid .wrap (hcKlen 0x02020#18) (hcDlen 0x02020#18) = true ∧
    (0x1FF07#18).getLsbD 17 = false ∧ valid .unwrap (hcKlen 0x1FF07#18) (hcDlen 0x1FF07#18) = false := by decide

theorem witness_StatusWordOfEveryState :
    (Regs.reset.Inv ∧ Regs.reset.st = .idle) ∧
    ((call .run .wrap 2 0#3 0#2 1#64 []).Inv ∧ (call .run .wrap 2 0#3 0#2 1#64 []).st = .run) ∧
    ((call .fin .wrap 4 5#3 3#2 1#64 []).Inv ∧ (call .fin .wrap 4 5#3 3#2 1#64 []).st = .fin) ∧
    ((call .fin .unwrap 2 0#3 0#2 Config.iv []).Inv ∧ (call .fin .unwrap 2 0#3 0#2 Config.iv []).dir = .unwrap ∧
      (call .fin .unwrap 2 0#3 0#2 Config.iv []).a = Config.iv) ∧
    ((result .ok 16#8 key16).Inv ∧ (result .ok 16#8 key16).st = .done) ∧
    ((result .invalidLength 0#8 []).Inv ∧ (result .invalidLength 0#8 []).res = .invalidLength) ∧
    ((result .authFailure 0#8 []).Inv ∧ (result .authFailure 0#8 []).res = .authFailure) :=
  ⟨⟨rfl, rfl⟩, ⟨inv_of_running_wraps.1, rfl⟩, ⟨inv_of_finishing_calls.2.1, rfl⟩,
    ⟨inv_of_finishing_calls.2.2.1, rfl, rfl⟩, ⟨inv_of_results.1, rfl⟩, ⟨inv_of_results.2.2.1, rfl⟩, ⟨inv_of_results.2.2.2, rfl⟩⟩

theorem witness_RequestCarriesTheLatchedKek :
    ((call .run .wrap 2 0#3 0#2 1#64 []).InCall ∧ (call .run .wrap 2 0#3 0#2 1#64 []).klenr.toNat ≤ 16) ∧
    ((call .run .unwrap 3 5#3 2#2 1#64 []).InCall ∧ (call .run .unwrap 3 5#3 2#2 1#64 []).klenr.toNat ≤ 24) ∧
    ((call .run .wrap 4 5#3 3#2 1#64 []).InCall ∧ (call .run .wrap 4 5#3 3#2 1#64 []).klenr = 32#8) := by
  decide

theorem witness_SplitAndJoinAreInverse :
    ([] : List Byte).length = 8 * 0 ∧ wrapped16.length = 8 * 3 ∧ 2 < 3 ∧ 7 < 8 ∧
    valid .wrap 16 16 = true ∧ valid .unwrap 32 40 = true := by decide

theorem witness_CounterRunsThroughEachValueOnce :
    (5 ≤ 5 ∧ 1 < 2 ∧ ctr 2 5 1 = 12) ∧ (0 < 4 ∧ 3 < 4 ∧ ctr 4 0 3 = ctr 4 0 3) ∧ (1 ≤ 24 ∧ 24 ≤ 6 * 4) := by decide

theorem witness_CounterIsEncodedBigEndian :
    0 < 2 ^ 64 ∧ 2 ^ 64 - 1 < 2 ^ 64 ∧ (1 ≤ 1 ∧ 1 ≤ 24) ∧ (1 ≤ 24 ∧ 24 ≤ 24) := by decide

theorem witness_XorWithCounterLaws :
    xorCtr 0xA6#64 24 = xorCtr 0xA6#64 24 ∧ 2 ^ 64 - 1 < 2 ^ 64 ∧ 24 ≤ 24 ∧ 6 < 7 := by decide

/-- A write that ends at the end of `DOUT`, with offsets at its edges and just outside; one of the whole buffer. -/
theorem witness_BufferReadsAndWrites :
    (wrapped16.length = 24 ∧ 16 + 8 ≤ 24 ∧ 7 < 8) ∧ (32 + 8 ≤ 40 ∧ (32 ≤ 32 ∧ 32 < 32 + 8) ∧ (32 ≤ 39 ∧ 39 < 32 + 8) ∧ 31 < 32) ∧
    (0 + 8 ≤ 40 ∧ 0 + 8 ≤ 8) ∧ 0 + 40 ≤ 40 := by decide

theorem witness_ValidStartWLoadsAWrapCall :
    State.reset.regs.st = .idle ∧
    ((16 = 16 ∨ 16 = 24 ∨ 16 = 32) ∧ (1 : Fin 4).val < 16 / 8 ∧ 16 / 8 ≤ (2 : Fin 4).val) ∧
    ((32 = 16 ∨ 32 = 24 ∨ 32 = 32) ∧ (3 : Fin 4).val < 32 / 8) := by decide

theorem witness_ValidStartULoadsAnUnwrapCall :
    State.reset.regs.st = .idle ∧
    ((16 = 16 ∨ 16 = 24 ∨ 16 = 32) ∧ 24 = 16 + 8 ∧ (1 : Fin 4).val < 16 / 8 ∧ 16 / 8 ≤ (2 : Fin 4).val) ∧
    ((32 = 16 ∨ 32 = 24 ∨ 32 = 32) ∧ 40 = 32 + 8 ∧ (3 : Fin 4).val < 32 / 8) := by decide

/-- The lengths valid for the other direction, and lengths valid for none. -/
theorem witness_InvalidStartRaisesInvalidLength :
    State.reset.regs.st = .idle ∧ (¬ ((16 = 16 ∨ 16 = 24 ∨ 16 = 32) ∧ 24 = 16)) ∧
    (¬ ((16 = 16 ∨ 16 = 24 ∨ 16 = 32) ∧ 16 = 16 + 8)) ∧ (¬ ((255 = 16 ∨ 255 = 24 ∨ 255 = 32) ∧ 7 = 255 + 8)) := by
  decide

theorem witness_CommandsNotReadyChangeNothing :
    (machine (call .run .wrap 2 0#3 0#2 1#64 [])).regs.st ≠ .idle ∧ State.reset.regs.st ≠ .done := by decide

theorem witness_WstepDoesOneForwardRound :
    (∃ s b, s = machine (call .run .wrap 2 0#3 0#2 1#64 []) ∧ s.regs.Inv ∧ s.regs.st = .run ∧ s.regs.dir = .wrap ∧
      b = Config.portEnc s.regs.kek (cat s.regs.a (s.regs.readR s.regs.i)) ∧ s.regs.i.toNat + 1 < s.regs.n.toNat) ∧
    (∃ s b, s = machine (call .run .wrap 2 4#3 1#2 1#64 []) ∧ s.regs.Inv ∧ s.regs.st = .run ∧ s.regs.dir = .wrap ∧
      b = Config.portEnc s.regs.kek (cat s.regs.a (s.regs.readR s.regs.i)) ∧
      s.regs.i.toNat + 1 = s.regs.n.toNat ∧ s.regs.j.toNat < 5) ∧
    (∃ s b, s = machine (call .run .wrap 4 5#3 3#2 1#64 []) ∧ s.regs.Inv ∧ s.regs.st = .run ∧ s.regs.dir = .wrap ∧
      b = Config.portEnc s.regs.kek (cat s.regs.a (s.regs.readR s.regs.i)) ∧
      s.regs.i.toNat + 1 = s.regs.n.toNat ∧ s.regs.j = 5#3) :=
  ⟨⟨_, _, rfl, inv_of_running_wraps.1, rfl, rfl, rfl, by decide⟩,
    ⟨_, _, rfl, inv_of_running_wraps.2.1, rfl, rfl, rfl, by decide, by decide⟩,
    ⟨_, _, rfl, inv_of_running_wraps.2.2, rfl, rfl, rfl, by decide, rfl⟩⟩

theorem witness_UstepDoesOneInverseRound :
    (∃ s c b, s = machine (call .run .unwrap 4 5#3 3#2 1#64 []) ∧ s.regs.Inv ∧ s.regs.st = .run ∧
      s.regs.dir = .unwrap ∧ c = s.regs.a ^^^ be64 (s.regs.n.toNat * s.regs.j.toNat + s.regs.i.toNat + 1) ∧
      b = Config.portDec s.regs.kek (cat c (s.regs.readR s.regs.i)) ∧ 0 < s.regs.i.toNat) ∧
    (∃ s c b, s = machine (call .run .unwrap 3 1#3 0#2 1#64 []) ∧ s.regs.Inv ∧ s.regs.st = .run ∧
      s.regs.dir = .unwrap ∧ c = s.regs.a ^^^ be64 (s.regs.n.toNat * s.regs.j.toNat + s.regs.i.toNat + 1) ∧
      b = Config.portDec s.regs.kek (cat c (s.regs.readR s.regs.i)) ∧ s.regs.i = 0#2 ∧ 0 < s.regs.j.toNat) ∧
    (∃ s c b, s = machine (call .run .unwrap 2 0#3 0#2 1#64 []) ∧ s.regs.Inv ∧ s.regs.st = .run ∧
      s.regs.dir = .unwrap ∧ c = s.regs.a ^^^ be64 (s.regs.n.toNat * s.regs.j.toNat + s.regs.i.toNat + 1) ∧
      b = Config.portDec s.regs.kek (cat c (s.regs.readR s.regs.i)) ∧ s.regs.i = 0#2 ∧ s.regs.j = 0#3) :=
  ⟨⟨_, _, _, rfl, inv_of_running_unwraps.1, rfl, rfl, rfl, rfl, by decide⟩,
    ⟨_, _, _, rfl, inv_of_running_unwraps.2.1, rfl, rfl, rfl, rfl, rfl, by decide⟩,
    ⟨_, _, _, rfl, inv_of_running_unwraps.2.2, rfl, rfl, rfl, rfl, rfl, rfl⟩⟩

theorem witness_WfinDeliversTheWrappedBuffer :
    (machine (call .fin .wrap 4 5#3 3#2 1#64 [])).regs.Inv ∧ (machine (call .fin .wrap 4 5#3 3#2 1#64 [])).regs.st = .fin ∧
    (machine (call .fin .wrap 4 5#3 3#2 1#64 [])).regs.dir = .wrap := ⟨inv_of_finishing_calls.2.1, rfl, rfl⟩

theorem witness_UfinChecksAThenDelivers :
    (∃ s, s = machine (call .fin .unwrap 2 0#3 0#2 Config.iv []) ∧ s.regs.Inv ∧ s.regs.st = .fin ∧
      s.regs.dir = .unwrap ∧ s.regs.a = 0xA6A6A6A6A6A6A6A6#64) ∧
    (∃ s, s = machine (call .fin .unwrap 4 0#3 0#2 1#64 []) ∧ s.regs.Inv ∧ s.regs.st = .fin ∧
      s.regs.dir = .unwrap ∧ s.regs.a ≠ 0xA6A6A6A6A6A6A6A6#64) :=
  ⟨⟨_, rfl, inv_of_finishing_calls.2.2.1, rfl, rfl, rfl⟩, ⟨_, rfl, inv_of_finishing_calls.2.2.2, rfl, rfl, by decide⟩⟩

theorem witness_AckReleasesTheEngine : (machine (result .ok 24#8 wrapped16)).regs.st = .done := by rfl

theorem witness_AckRestoresTheResetState :
    (machine (result .ok 16#8 key16)).regs.Inv ∧ (machine (result .ok 16#8 key16)).regs.st = .done :=
  ⟨inv_of_results.1, rfl⟩

/-- The largest result and both errors; the other rows of the table have the states of the status word's witness. -/
theorem witness_ReadSamplesStatusAndDout :
    (result .ok 40#8 (key32 ++ [1, 2, 3, 4, 5, 6, 7, 8])).Inv ∧
    (result .ok 40#8 (key32 ++ [1, 2, 3, 4, 5, 6, 7, 8])).res = .ok ∧ (result .invalidLength 0#8 []).Inv ∧
    (result .authFailure 0#8 []).Inv ∧ (result .ok 16#8 key16).olen.toNat ≤ (16 : Fin 40).val :=
  ⟨inv_of_results.2.1, rfl, inv_of_results.2.2.1, inv_of_results.2.2.2, by decide⟩

/-- A state for each clause: running in the other direction, and finishing in the other direction. -/
theorem witness_EngineStepsNotEnabledDoNothing :
    (¬ ((call .run .unwrap 2 0#3 0#2 1#64 []).st = .run ∧ (call .run .unwrap 2 0#3 0#2 1#64 []).dir = .wrap)) ∧
    (¬ ((call .run .wrap 2 0#3 0#2 1#64 []).st = .run ∧ (call .run .wrap 2 0#3 0#2 1#64 []).dir = .unwrap)) ∧
    (¬ (Regs.reset.st = .fin ∧ Regs.reset.dir = .wrap)) ∧
    (¬ ((call .fin .wrap 2 0#3 0#2 1#64 []).st = .fin ∧ (call .fin .wrap 2 0#3 0#2 1#64 []).dir = .unwrap)) := by
  decide

theorem witness_StepRunsTheDecodedInstruction :
    (∃ s : State, s.inputs = .command 0x3FFFF#18 Payload.zero :: [.engineTurn] ∧
      decode (.command 0x3FFFF#18 Payload.zero) = .ok (.ack 0x1FFFF#17)) ∧
    (∃ s : State, s.inputs = .readPort :: [.engineTurn]) ∧ (∃ s : State, s.inputs = .resetLine :: [.engineTurn]) ∧
    (∃ s : State, s.inputs = .engineTurn :: [.readPort] ∧ decode (.selector s.regs.sel) = .ok .wstep) ∧
    (∃ s : State, s.inputs = [] ∧ decode (.selector s.regs.sel) = .ok .ufin) :=
  ⟨⟨State.reset.setInputs (.command 0x3FFFF#18 Payload.zero :: [.engineTurn]), rfl, rfl⟩,
    ⟨State.reset.setInputs (.readPort :: [.engineTurn]), rfl⟩, ⟨State.reset.setInputs (.resetLine :: [.engineTurn]), rfl⟩,
    ⟨(machine (call .run .wrap 2 0#3 0#2 1#64 [])).setInputs (.engineTurn :: [.readPort]), rfl, rfl⟩,
    ⟨machine (call .fin .unwrap 2 0#3 0#2 1#64 []), rfl, rfl⟩⟩

theorem witness_EngineWaitsInIdleAndDone :
    (State.reset.regs.st = .idle ∧ State.reset.inputs = []) ∧
    ((machine (result .ok 16#8 key16)).regs.st = .done ∧
      ((machine (result .ok 16#8 key16)).setInputs [.engineTurn]).inputs = .engineTurn :: []) := by
  refine ⟨⟨rfl, rfl⟩, rfl, rfl⟩

theorem witness_EngineTurnIsTheEngineStep :
    State.reset.inputs = [] ∧ (State.reset.setInputs [.engineTurn, .readPort]).inputs = .engineTurn :: [.readPort] :=
  ⟨rfl, rfl⟩

/-- A step out of the idle state, and one out of a delivered result. -/
theorem witness_EveryStepKeepsTheInvariant :
    (∃ s t, s = State.reset.setInputs [.command 0x01414#18 Payload.zero] ∧ s.regs.Inv ∧ step s = .next t ∧ t.regs.st = .done) ∧
    (∃ s t, s = (machine (result .ok 16#8 key16)).setInputs [.command 0x20000#18 Payload.zero] ∧ s.regs.Inv ∧
      step s = .next t ∧ t.regs.st = .idle) :=
  ⟨⟨_, _, rfl, rfl, rfl, rfl⟩, ⟨_, _, rfl, inv_of_results.1, rfl, rfl⟩⟩

/-- One step for each of the six changes of `ST`. -/
theorem witness_SequencerChangesInSixWaysOnly :
    (∃ t, exec (.startW 16 16 Payload.zero) State.reset = .next t ∧ t.regs.st = .run) ∧
    (∃ t, exec (.startU 16 16 Payload.zero) State.reset = .next t ∧ t.regs.st = .done) ∧
    (∃ t, exec .wstep (machine (call .run .wrap 4 5#3 3#2 1#64 [])) = .next t ∧ t.regs.st = .fin) ∧
    (∃ t, exec .wfin (machine (call .fin .wrap 2 5#3 1#2 1#64 [])) = .next t ∧ t.regs.st = .done) ∧
    (∃ t, exec (.ack 0#17) (machine (result .ok 16#8 key16)) = .next t ∧ t.regs.st = .idle) ∧
    (∃ t, exec .reset (machine (call .run .unwrap 4 5#3 3#2 1#64 [])) = .next t ∧ t.regs.st = .idle) :=
  ⟨⟨_, rfl, rfl⟩, ⟨_, rfl, rfl⟩, ⟨_, rfl, rfl⟩, ⟨_, rfl, rfl⟩, ⟨_, rfl, rfl⟩, ⟨_, rfl, rfl⟩⟩

/-- Two engines at one position with different data. -/
theorem witness_SequencingDoesNotDependOnData :
    let e := call .fin .unwrap 2 0#3 0#2 Config.iv []
    let e' := call .fin .unwrap 2 0#3 0#2 7#64 [1#64]
    e ≠ e' ∧ e.st = e'.st ∧ e.dir = e'.dir ∧ e.n = e'.n ∧ e.j = e'.j ∧ e.i = e'.i := by decide

theorem witness_ErrorsAreRaisedAsTheTableSays :
    (∃ t, exec (.startW 16 24 Payload.zero) State.reset = .next t ∧ t.regs.res = .invalidLength ∧
      State.reset.regs.res ≠ .invalidLength ∧ valid .wrap 16 24 = false) ∧
    (∃ t, exec (.startU 16 16 Payload.zero) State.reset = .next t ∧ t.regs.res = .invalidLength ∧
      valid .unwrap 16 16 = false) ∧
    (∃ t, exec .ufin (machine (call .fin .unwrap 4 0#3 0#2 1#64 [])) = .next t ∧ t.regs.res = .authFailure ∧
      (call .fin .unwrap 4 0#3 0#2 1#64 []).res ≠ .authFailure ∧
      (call .fin .unwrap 4 0#3 0#2 1#64 []).a ≠ 0xA6A6A6A6A6A6A6A6#64) :=
  ⟨⟨_, rfl, rfl, by decide, rfl⟩, ⟨_, rfl, rfl, rfl⟩, ⟨_, rfl, by decide, by decide, by decide⟩⟩

theorem witness_RequestsOnlyFromRoundsAndSamplesOnlyFromRead :
    (∃ t, exec .wstep (machine (call .run .wrap 2 0#3 0#2 1#64 [])) = .next t) ∧
    (∃ t, exec .ustep (machine (call .run .unwrap 2 0#3 0#2 1#64 [])) = .next t) ∧
    (∃ t, exec .reset State.reset = .next t ∧ Instr.reset ≠ .read) :=
  ⟨⟨_, rfl⟩, ⟨_, rfl⟩, ⟨_, rfl, by decide⟩⟩

theorem witness_NothingIsShownBeforeTheResult :
    (∃ t, State.reset.regs.Inv ∧ step State.reset = .next t ∧ ¬ (t.regs.st = .done ∧ t.regs.res = .ok)) ∧
    (∃ s t, s = machine (call .fin .wrap 4 5#3 3#2 1#64 []) ∧ s.regs.Inv ∧ step s = .next t ∧ t.regs.st = .done ∧
      t.regs.res = .ok) :=
  ⟨⟨_, rfl, rfl, by decide⟩, ⟨_, _, rfl, inv_of_finishing_calls.2.1, rfl, rfl, rfl⟩⟩

theorem witness_RunningCallKeepsItsKekAndDirection :
    (call .run .wrap 2 0#3 0#2 1#64 []).st = .run ∧
    (∃ t, exec .wstep (machine (call .run .wrap 2 0#3 0#2 1#64 [])) = .next t) ∧ Instr.wstep ≠ .reset :=
  ⟨rfl, ⟨_, rfl⟩, by decide⟩

/-- Two payloads that differ just beyond both lengths. -/
theorem witness_StartIgnoresBytesBeyondTheLengths :
    let p := payloadOf Payload.zero (key16 ++ [1]) (kek16 ++ [1])
    let q := payloadOf Payload.zero key16 kek16
    p ≠ q ∧ (∀ k : Fin 32, k.val < 16 → p.kekbuf[k] = q.kekbuf[k]) ∧ (∀ k : Fin 40, k.val < 16 → p.din[k] = q.din[k]) ∧
    valid .wrap 0 0 = false ∧ valid .unwrap 0 0 = false := by decide

theorem witness_WrapTakesSixNRoundSteps :
    Regs.reset.st = .idle ∧ (2 = 2 ∨ 2 = 3 ∨ 2 = 4) ∧ 0 < 6 * 2 ∧ (4 = 2 ∨ 4 = 3 ∨ 4 = 4) ∧ 24 = 6 * 4 := by decide

theorem witness_UnwrapTakesSixNRoundSteps :
    Regs.reset.st = .idle ∧ (3 = 2 ∨ 3 = 3 ∨ 3 = 4) ∧ 17 < 6 * 3 ∧ 18 = 6 * 3 := by decide

theorem witness_EveryRunningCallReachesDone :
    ((call .run .wrap 2 0#3 0#2 1#64 []).Inv ∧ 12 + 2 * 0 + 0 = 6 * 2) ∧
    ((call .run .wrap 4 5#3 3#2 1#64 []).Inv ∧ 1 + 4 * 5 + 3 = 6 * 4) ∧
    ((call .run .unwrap 4 5#3 3#2 1#64 []).Inv ∧ 24 = 4 * 5 + 3 + 1) ∧
    ((call .run .unwrap 2 0#3 0#2 1#64 []).Inv ∧ 1 = 2 * 0 + 0 + 1) ∧
    ((call .fin .wrap 2 5#3 1#2 1#64 []).Inv ∧ (call .fin .wrap 2 5#3 1#2 1#64 []).st = .fin) :=
  ⟨⟨inv_of_running_wraps.1, rfl⟩, ⟨inv_of_running_wraps.2.2, rfl⟩, ⟨inv_of_running_unwraps.1, rfl⟩,
    ⟨inv_of_running_unwraps.2.2, rfl⟩, ⟨inv_of_finishing_calls.1, rfl⟩⟩

/-- The engine after a WSTEP, set back to the position of that step. -/
theorem witness_UstepUndoesWstep :
    ident.BcInv ∧
    (let e := call .run .wrap 2 0#3 0#2 1#64 [3#64]
     let f := { e.wrapRound ident with j := e.j, i := e.i, dir := .unwrap }
     e.kek.wf = true ∧ f.n = e.n ∧ f.j = e.j ∧ f.i = e.i ∧ f.klenr = e.klenr ∧ f.kekr = e.kekr ∧ f.a = (e.wrapRound ident).a ∧
     f.readR e.i = (e.wrapRound ident).readR e.i) :=
  ⟨ident_bcInv, by decide, rfl, rfl, rfl, rfl, rfl, rfl, rfl⟩

theorem witness_WrapAddsEightBytes :
    (16 = 16 ∨ 16 = 24 ∨ 16 = 32) ∧ key16.length = 16 ∧ (32 = 16 ∨ 32 = 24 ∨ 32 = 32) ∧ key32.length = 32 := by decide

/-- An authentic buffer under the cipher of V1, and one that IDENT refuses. -/
theorem witness_UnwrapGivesAllBytesOrNone :
    wrapped16.length = 16 + 8 ∧
    (unwrapLoops aesV1.dec { klen := 16, kb := kek16 } wrapped16).a = 0xA6A6A6A6A6A6A6A6#64 ∧
    (unwrapLoops ident.dec { klen := 16, kb := kek16 } wrapped16).a ≠ 0xA6A6A6A6A6A6A6A6#64 := by decide +kernel

theorem witness_UnwrapOfWrapIsTheKey :
    ident.BcInv ∧ ({ klen := 16, kb := kek16 } : Kek).wf = true ∧ key16.length = 16 :=
  ⟨ident_bcInv, by decide, by decide⟩

theorem witness_WrapCallComputesWrapf :
    (16 = 16 ∨ 16 = 24 ∨ 16 = 32) ∧ (32 = 16 ∨ 32 = 24 ∨ 32 = 32) ∧
    ∃ kek out f, kek = { klen := 16, kb := (payloadOf Payload.zero key16 kek16).kekbuf.toList.take 16 : Kek } ∧
      out = wrapF ident.enc kek ((payloadOf Payload.zero key16 kek16).din.toList.take 16) ∧
      f = engineRun ident (6 * (16 / 8) + 1) (Regs.reset.startWrap 16 16 (payloadOf Payload.zero key16 kek16)) :=
  ⟨by decide, by decide, _, _, _, rfl, rfl, rfl⟩

/-- One buffer for each outcome. -/
theorem witness_UnwrapCallComputesUnwrapf :
    (16 = 16 ∨ 16 = 24 ∨ 16 = 32) ∧ unwrapF aesV1.dec { klen := 16, kb := kek16 } wrapped16 = some key16 ∧
    unwrapF ident.dec { klen := 16, kb := kek16 } wrapped16 = none := by decide +kernel

theorem witness_EngineUnwrapsWhatItWrapped : ident.BcInv ∧ (24 = 16 ∨ 24 = 24 ∨ 24 = 32) := ⟨ident_bcInv, by decide⟩

/-- A valid call and an invalid one, each with a turn of the host after it. -/
theorem witness_ApiCallComputesDocsFunction :
    (∃ (s : State) (turns : List Input), s.regs = Regs.reset ∧
      apiTurns (apiCall .wrap key16 kek16) = some turns ∧ s.inputs = turns ++ [.readPort] ∧ turns.length = 16) ∧
    (∃ (s : State) (turns : List Input), s.regs = Regs.reset ∧
      apiTurns (apiCall .unwrap key16 kek16) = some turns ∧ s.inputs = turns ++ [.readPort] ∧ turns.length = 3) :=
  ⟨⟨State.reset.setInputs (((apiTurns (apiCall .wrap key16 kek16)).getD []) ++ [.readPort]), _, rfl, rfl, rfl, rfl⟩,
    ⟨State.reset.setInputs (((apiTurns (apiCall .unwrap key16 kek16)).getD []) ++ [.readPort]), _, rfl, rfl, rfl, rfl⟩⟩

/-- The shortest buffer the command word cannot express. -/
theorem witness_DriverRefusesOnlyInvalidLengths :
    apiTurns (apiCall .wrap (List.replicate 256 0#8) kek16) = none ∧
    (apiTurns (apiCall .wrap (List.replicate 255 0#8) kek16)).isSome := by
  decide +kernel

/-- A read that ends within the buffer's last byte and one byte beyond it. -/
theorem witness_ReadsBeyondABufferGiveZeroBytes : 7 < 8 ∧ key16.length ≤ 9 + 7 := by decide

/-- A call too long in each argument, one that fits at the bound; a state for each phase's two cases. -/
theorem witness_DriverFollowsTheMacro :
    (255 < (apiCall .wrap key16 (List.replicate 256 0#8)).kek.length) ∧
    (255 < (apiCall .wrap (List.replicate 256 0#8) kek16).data.length) ∧
    ((apiCall .wrap (List.replicate 255 0#8) (List.replicate 255 0#8)).kek.length ≤ 255 ∧
      (apiCall .wrap (List.replicate 255 0#8) (List.replicate 255 0#8)).data.length ≤ 255 ∧
      State.reset.regs.st = .idle) ∧
    (machine (call .run .wrap 2 0#3 0#2 1#64 [])).regs.st ≠ .idle ∧
    (machine (call .run .wrap 2 0#3 0#2 1#64 [])).regs.st ≠ .done ∧
    (machine (result .ok 16#8 key16)).regs.st = .done := by
  refine ⟨?_, ?_, ⟨?_, ?_, rfl⟩, by decide, by decide, rfl⟩ <;> simp only [apiCall, List.length_replicate] <;> omega

/-- An engine ready at once, and one that another caller's ACK makes ready after one step. -/
theorem witness_DriverComputesDocsFunction :
    ((apiCall .wrap key16 kek16).kek.length ≤ 255 ∧ (apiCall .wrap key16 kek16).data.length ≤ 255) ∧
    (Sys2Proof.core.run 0 State.reset = .next State.reset ∧ State.reset.regs.Inv ∧ State.reset.regs.st = .idle ∧
      State.reset.inputs = []) ∧
    (∃ s u : State, s.regs = result .ok 16#8 key16 ∧
      (∀ k t, k < 1 → Sys2Proof.core.run k s = .next t → t.regs.st ≠ .idle) ∧
      Sys2Proof.core.run 1 s = .next u ∧ u.regs.Inv ∧ u.regs.st = .idle ∧ u.inputs = [.engineTurn]) ∧
    (255 < (apiCall .wrap key16 (List.replicate 256 0#8)).kek.length) := by
  refine ⟨by decide, ⟨rfl, rfl, rfl, rfl⟩,
    ⟨(machine (result .ok 16#8 key16)).setInputs [.command 0x20000#18 Payload.zero, .engineTurn], _, rfl, ?_, rfl, rfl,
      rfl, rfl⟩, by simp only [apiCall, List.length_replicate]; omega⟩
  intro k t hk h
  obtain rfl : k = 0 := by omega
  cases h
  decide

end Sys2Proof.Tests
end

section
/-! The turn that a step takes, and the calls that the driver turns away: the proofs of O27 and O51. -/

namespace Sys2Proof.Machine

/-! ### What the first turn presents -/

theorem nextStimulus_of_command {s : State} {hc : BitVec 18} {pay : Payload} {rest : List Input}
    (h : s.inputs = .command hc pay :: rest) : nextStimulus s = .command hc pay := by
  simp only [nextStimulus, h]

theorem nextStimulus_of_readPort {s : State} {rest : List Input} (h : s.inputs = .readPort :: rest) :
    nextStimulus s = .readPort := by
  simp only [nextStimulus, h]

theorem nextStimulus_of_resetLine {s : State} {rest : List Input} (h : s.inputs = .resetLine :: rest) :
    nextStimulus s = .resetLine := by
  simp only [nextStimulus, h]

theorem nextStimulus_of_engineTurn {s : State} {rest : List Input} (h : s.inputs = .engineTurn :: rest) :
    nextStimulus s = .selector s.regs.sel := by
  simp only [nextStimulus, h]

theorem nextStimulus_of_nil {s : State} (h : s.inputs = []) : nextStimulus s = .selector s.regs.sel := by
  simp only [nextStimulus, h]

/-! ### Taking the turn off the list -/

theorem takeTurn_of_cons {s : State} {x : Input} {rest : List Input} (h : s.inputs = x :: rest) :
    takeTurn s = { s with inputs := rest } := by
  simp only [takeTurn, State.setInputs, h, List.tail_cons]

/-- With no turn left there is none to take. -/
theorem takeTurn_of_nil {s : State} (h : s.inputs = []) : takeTurn s = s := by
  cases s
  cases h
  rfl

theorem step_of_cons {s : State} {x : Input} {rest : List Input} {i : Instr} (hs : s.inputs = x :: rest)
    (hd : decode (nextStimulus s) = .ok i) : step s = exec i { s with inputs := rest } := by
  rw [step_of_ok s i hd, takeTurn_of_cons hs]

theorem step_of_nil {s : State} {i : Instr} (hs : s.inputs = []) (hd : decode (nextStimulus s) = .ok i) :
    step s = exec i s := by
  rw [step_of_ok s i hd, takeTurn_of_nil hs]

/-- Settles O27: by the kind of the first turn, which says what is decoded. -/
theorem stepRunsTheDecodedInstruction : Obligations.StepRunsTheDecodedInstruction := by
  intro s rest i
  refine ⟨fun hc pay hs hd => ?command, fun hs => ?readPort, fun hs => ?resetLine, fun hs hd => ?engineTurn,
    fun hs hd => ?noTurn⟩
  case command => exact step_of_cons hs (by rw [nextStimulus_of_command hs, hd])
  case readPort => exact step_of_cons hs (by rw [nextStimulus_of_readPort hs, decode])
  case resetLine => exact step_of_cons hs (by rw [nextStimulus_of_resetLine hs, decode])
  case engineTurn => exact step_of_cons hs (by rw [nextStimulus_of_engineTurn hs, hd])
  case noTurn => exact step_of_nil hs (by rw [nextStimulus_of_nil hs, hd])

/-! ### Calls that are too long -/

theorem apiTurns_eq_none_iff (c : ApiCall) : apiTurns c = none ↔ 255 < c.kek.length ∨ 255 < c.data.length := by
  simp only [apiTurns, ApiCall.tooLong, decide_eq_true_eq, ite_eq_left_iff, reduceCtorEq, imp_false, not_not]

/-- Valid lengths are those of a KEK of at most 32 bytes and a buffer of at most 40 (30_encoding.md rule R97). -/
theorem valid_lengths_le {dir : Dir} {klen dlen : Nat} (h : valid dir klen dlen = true) : klen ≤ 32 ∧ dlen ≤ 40 := by
  obtain ⟨hk, hd⟩ := (valid_eq_true_iff dir klen dlen).mp h
  have hdir : dir.num ≤ 1 := by cases dir <;> decide
  omega

theorem docCall_of_invalid {bc : BlockCipher} {dir : Dir} {data kek : List Byte}
    (h : valid dir kek.length data.length = false) : docCall bc dir data kek = .error .invalidLength := by
  cases dir with
  | wrap => simp [docCall, docWrap, h]
  | unwrap => simp [docCall, docUnwrap, h]

/-- Settles O51: a length above 255 is above every valid length. -/
theorem driverRefusesOnlyInvalidLengths : Obligations.DriverRefusesOnlyInvalidLengths := by
  intro bc c hnone
  have hlong := (apiTurns_eq_none_iff c).mp hnone
  refine docCall_of_invalid (Bool.eq_false_iff.mpr fun hvalid => ?_)
  have hshort := valid_lengths_le hvalid
  omega

end Sys2Proof.Machine
end

section
/-! Round positions and round steps: where the position goes, and that a round step keeps a call a call. -/

namespace Sys2Proof.Machine

/-! ### The next position (10_state.md rule R36) -/

theorem nextWrap_eq_none_iff (n j : BitVec 3) (i : BitVec 2) :
    nextWrap n j i = none ↔ n.toNat ≤ i.toNat + 1 ∧ 5 ≤ j.toNat := by
  simp only [nextWrap]
  split_ifs <;> simp <;> omega

theorem nextUnwrap_eq_none_iff (n j : BitVec 3) (i : BitVec 2) :
    nextUnwrap n j i = none ↔ i.toNat = 0 ∧ j.toNat = 0 := by
  simp only [nextUnwrap]
  split_ifs <;> simp <;> omega

/-- From a position in range, `next_wrap` gives one in range. -/
theorem nextWrap_in_range {n j : BitVec 3} {i : BitVec 2} {p : BitVec 3 × BitVec 2} (hj : j.toNat ≤ 5)
    (hi : i.toNat < n.toNat) (h : nextWrap n j i = some p) : p.1.toNat ≤ 5 ∧ p.2.toNat < n.toNat := by
  simp only [nextWrap] at h
  split_ifs at h with hrow hround <;> cases h
  · exact ⟨hj, by bv_omega⟩
  · exact ⟨by bv_omega, Nat.zero_lt_of_lt hi⟩

/-- From a position in range, `next_unwrap` gives one in range. -/
theorem nextUnwrap_in_range {n j : BitVec 3} {i : BitVec 2} {p : BitVec 3 × BitVec 2} (hj : j.toNat ≤ 5)
    (hi : i.toNat < n.toNat) (h : nextUnwrap n j i = some p) : p.1.toNat ≤ 5 ∧ p.2.toNat < n.toNat := by
  simp only [nextUnwrap] at h
  split_ifs at h with hrow hround <;> cases h
  · exact ⟨hj, by bv_omega⟩
  · refine ⟨by bv_omega, ?_⟩
    have hlast : (n - 1#3).toNat + 1 = n.toNat := by bv_omega
    have hmod : ((n - 1#3).setWidth 2).toNat ≤ (n - 1#3).toNat := by
      simpa only [BitVec.toNat_setWidth] using Nat.mod_le _ _
    show ((n - 1#3).setWidth 2).toNat < n.toNat
    omega

theorem Regs.InCall.atLast_of_nextWrap_eq_none {e : Regs} (h : e.InCall) (hd : e.dir = .wrap)
    (hlast : nextWrap e.n e.j e.i = none) : e.AtLast := by
  obtain ⟨-, -, hj, hi, -⟩ := h
  obtain ⟨hn, hj'⟩ := (nextWrap_eq_none_iff _ _ _).mp hlast
  simp only [Regs.AtLast, hd]
  exact ⟨by bv_omega, by omega⟩

theorem Regs.atLast_of_nextUnwrap_eq_none {e : Regs} (hd : e.dir = .unwrap)
    (hlast : nextUnwrap e.n e.j e.i = none) : e.AtLast := by
  obtain ⟨hi, hj⟩ := (nextUnwrap_eq_none_iff _ _ _).mp hlast
  simp only [Regs.AtLast, hd]
  exact ⟨by bv_omega, by bv_omega⟩

/-! ### What the two round steps share -/

/-- The new `A` and `R[I]` of a round step, before the position moves on (42_wrap.md rule R163, 43_unwrap.md rule
R183). -/
def Regs.putPair (e : Regs) (a v : Semiblock) : Regs := { e.writeR e.i v with a := a }

/-- A WSTEP puts some pair and moves on; what the pair is, its sequencing does not need. -/
theorem Regs.wrapRound_eq_advance (bc : BlockCipher) (e : Regs) :
    ∃ a v, e.wrapRound bc = (e.putPair a v).advance (nextWrap e.n e.j e.i) := ⟨_, _, rfl⟩

/-- A USTEP puts some pair and moves on; what the pair is, its sequencing does not need. -/
theorem Regs.unwrapRound_eq_advance (bc : BlockCipher) (e : Regs) :
    ∃ a v, e.unwrapRound bc = (e.putPair a v).advance (nextUnwrap e.n e.j e.i) := ⟨_, _, rfl⟩

/-- The semiblock written is below `N`, so those from `N` up stay zero. -/
theorem Regs.InCall.putPair {e : Regs} (h : e.InCall) (a v : Semiblock) : (e.putPair a v).InCall := by
  obtain ⟨hn, hklen, hj, hi, hr, hkek, hres, hout⟩ := h
  refine ⟨hn, hklen, hj, hi, fun k hk => ?_, hkek, hres, hout⟩
  have hne : e.i.toNat ≠ k.val := (Nat.lt_of_lt_of_le hi hk).ne
  exact (Vector.getElem_set_ne e.i.isLt k.isLt hne).trans (hr k hk)

theorem Regs.InCall.advance_some {e : Regs} (h : e.InCall) {p : BitVec 3 × BitVec 2}
    (hp : p.1.toNat ≤ 5 ∧ p.2.toNat < e.n.toNat) : (e.advance (some p)).InCall := by
  obtain ⟨hn, hklen, -, -, hr, hkek, hres, hout⟩ := h
  exact ⟨hn, hklen, hp.1, hp.2, hr, hkek, hres, hout⟩

end Sys2Proof.Machine
end

section
/-! The invariant of 10_state.md rule R48 holds at reset and every step keeps it: the proofs of O31, O32 and O37. -/

namespace Sys2Proof.Machine

/-! ### The invariant from its case -/

theorem Regs.InCall.inv {e : Regs} (h : e.InCall) (hst : e.st = .run) : e.Inv := by
  simpa only [Regs.Inv, hst] using h

theorem Regs.Delivered.inv {e : Regs} (h : e.Delivered) (hst : e.st = .done) : e.Inv := by
  simpa only [Regs.Inv, hst] using h

theorem Regs.reset_inv : Regs.reset.Inv := rfl

/-- Settles O32: reset puts the engine in IDLE with every register at its reset value. -/
theorem resetStateMeetsTheInvariant : Obligations.ResetStateMeetsTheInvariant := Regs.reset_inv

/-! ### START -/

/-- What a valid START latches is a call, if nothing of an earlier call is left in the result registers. -/
theorem Regs.load_inCall {e : Regs} (hres : e.res = .none) (hout : e.NoOutput) {klen : Nat}
    (hklen : klen = 16 ∨ klen = 24 ∨ klen = 32) (dir : Dir) (kekbuf : Vector Byte 32) (a : Semiblock)
    {semis : List Semiblock} (hsemis : semis.length = klen / 8) {j : BitVec 3} (hj : j.toNat ≤ 5) {i : BitVec 2}
    (hi : i.toNat < klen / 8) : (e.load dir klen kekbuf a semis j i).InCall := by
  have hn : (BitVec.ofNat 3 (klen / 8)).toNat = klen / 8 := by
    rw [BitVec.toNat_ofNat, Nat.mod_eq_of_lt (by omega)]
  have hk : (BitVec.ofNat 8 klen).toNat = klen := by
    rw [BitVec.toNat_ofNat, Nat.mod_eq_of_lt (by omega)]
  refine ⟨?n, ?klenr, hj, ?i, fun k h => ?r, fun k h => ?kekr, hres, hout⟩
  case n => rcases hklen with rfl | rfl | rfl <;> simp
  case klenr => rw [Regs.load_klenr, Regs.load_n, hk, hn]; omega
  case i => rwa [Regs.load_i, Regs.load_n, hn]
  case r =>
    rw [Regs.load_n, hn] at h
    rw [Regs.load_r, registerFile_getElem, List.getD_eq_default _ _ (by omega)]
  case kekr =>
    rw [Regs.load_klenr, hk] at h
    rw [Regs.load_kekr, latchedKek_getElem, if_neg (by omega)]

/-- An invalid START from the reset registers ends the call with no output. -/
theorem Regs.raise_invalidLength_reset_inv : (Regs.reset.raise .invalidLength).Inv :=
  Regs.Delivered.inv ⟨rfl, .inr (.inl ⟨rfl, rfl, rfl⟩)⟩ rfl

theorem Regs.startWrap_reset_inv (klen dlen : Nat) (pay : Payload) : (Regs.reset.startWrap klen dlen pay).Inv := by
  cases hv : valid .wrap klen dlen with
  | false => rw [startWrap_invalid _ _ _ _ hv]; exact Regs.raise_invalidLength_reset_inv
  | true =>
    obtain ⟨hklen, -⟩ := (valid_eq_true_iff _ _ _).mp hv
    have hi : (0#2).toNat < klen / 8 := by rw [BitVec.toNat_ofNat]; omega
    rw [startWrap_valid _ _ _ _ hv]
    exact (Regs.load_inCall rfl ⟨rfl, rfl⟩ hklen _ _ _ (split_length _ _) (by decide) hi).inv rfl

theorem Regs.startUnwrap_reset_inv (klen dlen : Nat) (pay : Payload) :
    (Regs.reset.startUnwrap klen dlen pay).Inv := by
  cases hv : valid .unwrap klen dlen with
  | false => rw [startUnwrap_invalid _ _ _ _ hv]; exact Regs.raise_invalidLength_reset_inv
  | true =>
    obtain ⟨hklen, -⟩ := (valid_eq_true_iff _ _ _).mp hv
    have hi : (BitVec.ofNat 2 (klen / 8 - 1)).toNat < klen / 8 := by rw [BitVec.toNat_ofNat]; omega
    rw [startUnwrap_valid _ _ _ _ hv]
    exact (Regs.load_inCall rfl ⟨rfl, rfl⟩ hklen _ _ _ (by simp [split_length]) (by decide) hi).inv rfl

/-! ### Round steps -/

/-- Moving on keeps a call a call, and past the last position only it goes to FIN. -/
theorem Regs.InCall.advance_inv {e : Regs} (h : e.InCall) (hst : e.st = .run) {q : Option (BitVec 3 × BitVec 2)}
    (hrange : ∀ p, q = some p → p.1.toNat ≤ 5 ∧ p.2.toNat < e.n.toNat) (hlast : q = none → e.AtLast) :
    (e.advance q).Inv := by
  cases q with
  | some p => exact (h.advance_some (hrange p rfl)).inv hst
  | none => exact ⟨h, hlast rfl⟩

theorem Regs.InCall.wrapRound_inv {e : Regs} (h : e.InCall) (hst : e.st = .run) (hd : e.dir = .wrap)
    (bc : BlockCipher) : (e.wrapRound bc).Inv := by
  obtain ⟨a, v, hround⟩ := e.wrapRound_eq_advance bc
  have ⟨_, _, hj, hi, _⟩ := h
  rw [hround]
  exact (h.putPair a v).advance_inv hst (fun _ => nextWrap_in_range hj hi)
    ((h.putPair a v).atLast_of_nextWrap_eq_none hd)

theorem Regs.InCall.unwrapRound_inv {e : Regs} (h : e.InCall) (hst : e.st = .run) (hd : e.dir = .unwrap)
    (bc : BlockCipher) : (e.unwrapRound bc).Inv := by
  obtain ⟨a, v, hround⟩ := e.unwrapRound_eq_advance bc
  have ⟨_, _, hj, hi, _⟩ := h
  rw [hround]
  exact (h.putPair a v).advance_inv hst (fun _ => nextUnwrap_in_range hj hi)
    (Regs.atLast_of_nextUnwrap_eq_none (e := e.putPair a v) hd)

/-! ### Finishing steps and ACK -/

/-- A delivery of two to five semiblocks is a result of 16, 24, 32 or 40 bytes with zero bytes above them. -/
theorem Regs.deliver_inv (e : Regs) {l : List Semiblock} (hlo : 2 ≤ l.length) (hhi : l.length ≤ 5) :
    (e.deliver l).Inv := by
  refine Regs.Delivered.inv ⟨deliver_eq e l, .inl ⟨rfl, ?olen, fun k hk => ?dout⟩⟩ rfl
  case olen =>
    rw [Regs.deliver_olen]
    generalize l.length = m at hlo hhi
    interval_cases m <;> simp [Config.semiBytes]
  case dout =>
    have hlen : (e.deliver l).olen.toNat = 8 * l.length := by
      rw [Regs.deliver_olen, BitVec.toNat_ofNat]; simp only [Config.semiBytes]; omega
    rw [Machine.deliver_dout, List.getD_eq_default _ _ (by rw [join_length]; omega)]

theorem Regs.InCall.length_take_r {e : Regs} (h : e.InCall) : (e.r.toList.take e.n.toNat).length = e.n.toNat := by
  have hn := h.n_cases
  rw [List.length_take, Vector.length_toList]
  omega

theorem Regs.InCall.wrapFinish_inv {e : Regs} (h : e.InCall) : e.wrapFinish.Inv := by
  have hn := h.n_cases
  refine Regs.deliver_inv e ?_ ?_ <;> rw [List.length_cons, h.length_take_r] <;> omega

theorem Regs.InCall.raise_authenticationFailure_inv {e : Regs} (h : e.InCall) :
    (e.raise .authenticationFailure).Inv := by
  obtain ⟨-, -, -, -, -, -, -, hout⟩ := h
  exact Regs.Delivered.inv ⟨rfl, .inr (.inr ⟨rfl, hout⟩)⟩ rfl

theorem Regs.InCall.unwrapFinish_inv {e : Regs} (h : e.InCall) : e.unwrapFinish.Inv := by
  have hn := h.n_cases
  rw [Regs.unwrapFinish]
  split
  · refine Regs.deliver_inv e ?_ ?_ <;> rw [h.length_take_r] <;> omega
  · exact h.raise_authenticationFailure_inv

/-- With the working registers clear, releasing the result leaves the reset registers (44_host.md rule R206). -/
theorem Regs.WorkingClear.release_eq {e : Regs} (h : e.WorkingClear) : e.release = Regs.reset := by
  rw [h]; rfl

/-! ### Every instruction and every step -/

/-- Every instruction keeps the invariant. -/
theorem exec_keeps_inv {i : Instr} {s t : State} (hinv : s.regs.Inv) (h : exec i s = .next t) : t.regs.Inv := by
  obtain rfl | ⟨k, d, p, rfl, hst, rfl⟩ | ⟨k, d, p, rfl, hst, rfl⟩ | ⟨x, rfl, hst, rfl⟩ | ⟨rfl, hst, hd, rfl⟩ |
    ⟨rfl, hst, hd, rfl⟩ | ⟨rfl, hst, -, rfl⟩ | ⟨rfl, hst, -, rfl⟩ | ⟨rfl, rfl⟩ | ⟨rfl, rfl⟩ := exec_cases i s t h
  · exact hinv
  · rw [State.setRegs_regs, hinv.of_idle hst]
    exact Regs.startWrap_reset_inv k d p
  · rw [State.setRegs_regs, hinv.of_idle hst]
    exact Regs.startUnwrap_reset_inv k d p
  · obtain ⟨hclear, -⟩ := hinv.of_done hst
    rw [State.setRegs_regs, hclear.release_eq]
    exact Regs.reset_inv
  · exact (hinv.of_run hst).wrapRound_inv hst hd _
  · exact (hinv.of_run hst).unwrapRound_inv hst hd _
  · exact (hinv.of_fin hst).1.wrapFinish_inv
  · exact (hinv.of_fin hst).1.unwrapFinish_inv
  · exact hinv
  · exact Regs.reset_inv

/-- Settles O31: a step runs an instruction, which keeps the invariant, or waits. -/
theorem everyStepKeepsTheInvariant : Obligations.EveryStepKeepsTheInvariant := by
  intro s t hinv h
  cases hdec : decode (nextStimulus s) with
  | ok i => exact exec_keeps_inv (i := i) (s := takeTurn s) hinv (step_of_ok s i hdec ▸ h)
  | error x =>
    obtain rfl : takeTurn s = t := by simpa only [step_of_error s x hdec, Host.Outcome.next.injEq] using h
    exact hinv

/-! ### What is shown of a result -/

/-- 10_state.md rules R42 and R44: only an OK result shows anything. -/
theorem Regs.Inv.noOutput {e : Regs} (h : e.Inv) (hnot : ¬ (e.st = .done ∧ e.res = .ok)) : e.NoOutput := by
  cases hst : e.st with
  | idle => rw [h.of_idle hst]; exact ⟨rfl, rfl⟩
  | run =>
    obtain ⟨-, -, -, -, -, -, -, hout⟩ := h.of_run hst
    exact hout
  | fin =>
    obtain ⟨⟨-, -, -, -, -, -, -, hout⟩, -⟩ := h.of_fin hst
    exact hout
  | done =>
    obtain ⟨-, ⟨hok, -⟩ | ⟨-, hout⟩ | ⟨-, hout⟩⟩ := h.of_done hst
    · exact absurd ⟨hst, hok⟩ hnot
    · exact hout
    · exact hout

/-- An OK result shows at least one byte, and zero bytes above the result. -/
theorem Regs.Inv.output {e : Regs} (h : e.Inv) (hst : e.st = .done) (hok : e.res = .ok) :
    0 < e.olen.toNat ∧ ∀ p : Fin 40, e.olen.toNat ≤ p.val → e.dout[p] = 0#8 := by
  obtain ⟨-, ⟨-, holen, hzero⟩ | ⟨herr, -⟩ | ⟨herr, -⟩⟩ := h.of_done hst
  · refine ⟨?_, hzero⟩
    obtain h | h | h | h := holen <;> simp [h]
  · simp [herr] at hok
  · simp [herr] at hok

/-- Settles O37: the invariant, which the step keeps, says when there is output. -/
theorem nothingIsShownBeforeTheResult : Obligations.NothingIsShownBeforeTheResult := by
  intro s t hinv h
  have hinv' := everyStepKeepsTheInvariant s t hinv h
  exact ⟨hinv'.noOutput, hinv'.output⟩

end Sys2Proof.Machine
end

section
/-! The sequencer: which instruction changes `ST`, what it depends on, and what a running call keeps: the proofs of
O33, O34 and O38. -/

namespace Sys2Proof.Machine

/-! ### The changes of `ST` -/

theorem Regs.startWrap_st (e : Regs) (klen dlen : Nat) (pay : Payload) :
    (e.startWrap klen dlen pay).st = if valid .wrap klen dlen then .run else .done := by
  rw [Regs.startWrap]; split <;> rfl

theorem Regs.startUnwrap_st (e : Regs) (klen dlen : Nat) (pay : Payload) :
    (e.startUnwrap klen dlen pay).st = if valid .unwrap klen dlen then .run else .done := by
  rw [Regs.startUnwrap]; split <;> rfl

theorem Regs.unwrapFinish_st (e : Regs) : e.unwrapFinish.st = .done := by
  rw [Regs.unwrapFinish]; split <;> rfl

/-- Moving on changes `ST` past the last position only, and then to FIN. -/
theorem Regs.advance_st_ne {e : Regs} {q : Option (BitVec 3 × BitVec 2)} (h : (e.advance q).st ≠ e.st) :
    q = none ∧ (e.advance q).st = .fin := by
  cases q with
  | some p => exact absurd (Regs.advance_some_st e p) h
  | none => exact ⟨rfl, rfl⟩

theorem Regs.InCall.wrapRound_st_ne {e : Regs} (h : e.InCall) (hd : e.dir = .wrap) {bc : BlockCipher}
    (hne : (e.wrapRound bc).st ≠ e.st) : (e.wrapRound bc).st = .fin ∧ e.AtLast := by
  obtain ⟨a, v, hround⟩ := e.wrapRound_eq_advance bc
  rw [hround] at hne ⊢
  obtain ⟨hlast, hfin⟩ := Regs.advance_st_ne (e := e.putPair a v) hne
  exact ⟨hfin, h.atLast_of_nextWrap_eq_none hd hlast⟩

theorem Regs.unwrapRound_st_ne {e : Regs} (hd : e.dir = .unwrap) {bc : BlockCipher}
    (hne : (e.unwrapRound bc).st ≠ e.st) : (e.unwrapRound bc).st = .fin ∧ e.AtLast := by
  obtain ⟨a, v, hround⟩ := e.unwrapRound_eq_advance bc
  rw [hround] at hne ⊢
  obtain ⟨hlast, hfin⟩ := Regs.advance_st_ne (e := e.putPair a v) hne
  exact ⟨hfin, Regs.atLast_of_nextUnwrap_eq_none hd hlast⟩

/-- Settles O33: by what the instruction can do, a START by whether it is valid. -/
theorem sequencerChangesInSixWaysOnly : Obligations.SequencerChangesInSixWaysOnly := by
  intro s t i hinv h hne
  obtain rfl | ⟨k, d, p, rfl, hst, rfl⟩ | ⟨k, d, p, rfl, hst, rfl⟩ | ⟨x, rfl, hst, rfl⟩ | ⟨rfl, hst, hd, rfl⟩ |
    ⟨rfl, hst, hd, rfl⟩ | ⟨rfl, hst, -, rfl⟩ | ⟨rfl, hst, -, rfl⟩ | ⟨rfl, rfl⟩ | ⟨rfl, rfl⟩ := exec_cases i s t h
  · exact absurd rfl hne
  · have hst' := s.regs.startWrap_st k d p
    cases hv : valid .wrap k d <;> rw [hv] at hst'
    · exact .inr (.inl ⟨hst, hst', k, d, p, .inl ⟨rfl, hv⟩⟩)
    · exact .inl ⟨hst, hst', k, d, p, .inl ⟨rfl, hv⟩⟩
  · have hst' := s.regs.startUnwrap_st k d p
    cases hv : valid .unwrap k d <;> rw [hv] at hst'
    · exact .inr (.inl ⟨hst, hst', k, d, p, .inr ⟨rfl, hv⟩⟩)
    · exact .inl ⟨hst, hst', k, d, p, .inr ⟨rfl, hv⟩⟩
  · exact .inr (.inr (.inr (.inr (.inl ⟨hst, rfl, x, rfl⟩))))
  · obtain ⟨hfin, hlast⟩ := (hinv.of_run hst).wrapRound_st_ne hd hne
    exact .inr (.inr (.inl ⟨hst, hfin, hlast, .inl rfl⟩))
  · obtain ⟨hfin, hlast⟩ := Regs.unwrapRound_st_ne hd hne
    exact .inr (.inr (.inl ⟨hst, hfin, hlast, .inr rfl⟩))
  · exact .inr (.inr (.inr (.inl ⟨hst, rfl, .inl rfl⟩)))
  · exact .inr (.inr (.inr (.inl ⟨hst, s.regs.unwrapFinish_st, .inr rfl⟩)))
  · exact absurd rfl hne
  · exact .inr (.inr (.inr (.inr (.inr ⟨rfl, rfl⟩))))

/-! ### Sequencing as a function of the sequencing registers -/

/-- The registers that decide which engine step comes next: `ST`, `DIR`, `N` and the position. -/
structure Control where
  st  : Seq
  dir : Dir
  n   : BitVec 3
  j   : BitVec 3
  i   : BitVec 2

def Regs.control (e : Regs) : Control := { st := e.st, dir := e.dir, n := e.n, j := e.j, i := e.i }

/-- `Regs.advance` on the sequencing registers. -/
def Control.advance (c : Control) : Option (BitVec 3 × BitVec 2) → Control
  | some p => { c with j := p.1, i := p.2 }
  | none => { c with st := .fin }

/-- The engine's turn on the sequencing registers alone: no data register and no cipher is among its arguments. -/
def Control.next (c : Control) : Control :=
  match c.st, c.dir with
  | .run, .wrap => c.advance (nextWrap c.n c.j c.i)
  | .run, .unwrap => c.advance (nextUnwrap c.n c.j c.i)
  | .fin, _ => { st := .done, dir := .wrap, n := 0#3, j := 0#3, i := 0#2 }
  | .idle, _ => c
  | .done, _ => c

theorem Regs.control_advance (e : Regs) (q : Option (BitVec 3 × BitVec 2)) :
    (e.advance q).control = e.control.advance q := by cases q <;> rfl

theorem Regs.control_wrapRound (bc : BlockCipher) (e : Regs) :
    (e.wrapRound bc).control = e.control.advance (nextWrap e.n e.j e.i) := by
  obtain ⟨a, v, hround⟩ := e.wrapRound_eq_advance bc
  rw [hround, Regs.control_advance]; rfl

theorem Regs.control_unwrapRound (bc : BlockCipher) (e : Regs) :
    (e.unwrapRound bc).control = e.control.advance (nextUnwrap e.n e.j e.i) := by
  obtain ⟨a, v, hround⟩ := e.unwrapRound_eq_advance bc
  rw [hround, Regs.control_advance]; rfl

theorem Regs.control_unwrapFinish (e : Regs) :
    e.unwrapFinish.control = { st := .done, dir := .wrap, n := 0#3, j := 0#3, i := 0#2 } := by
  rw [Regs.unwrapFinish]; split <;> rfl

/-- The engine's turn moves the sequencing registers by `Control.next`, whatever the data and the cipher. -/
theorem engineRegs_control (bc : BlockCipher) (e : Regs) : (engineRegs bc e).control = e.control.next := by
  obtain ⟨a, r, n, j, i, dir, st, klenr, kekr, res, olen, dout⟩ := e
  cases st with
  | idle => rfl
  | run =>
    cases dir with
    | wrap => exact Regs.control_wrapRound bc _
    | unwrap => exact Regs.control_unwrapRound bc _
  | fin =>
    cases dir with
    | wrap => rfl
    | unwrap => exact Regs.control_unwrapFinish _
  | done => rfl

/-- Settles O34: the sequencing registers after the turn are one function of those before it. -/
theorem sequencingDoesNotDependOnData : Obligations.SequencingDoesNotDependOnData := by
  intro bc bc' e e' hst hdir hn hj hi
  have hbefore : e.control = e'.control := by simp only [Regs.control, hst, hdir, hn, hj, hi]
  have hafter : (engineRegs bc e).control = (engineRegs bc' e').control := by
    rw [engineRegs_control, engineRegs_control, hbefore]
  simpa only [Regs.control, Control.mk.injEq] using hafter

/-! ### What a running call keeps -/

/-- The other state keeps the latched KEK, the direction and `N`, and the call is not over. -/
def Regs.KeepsCall (e f : Regs) : Prop :=
  f.klenr = e.klenr ∧ f.kekr = e.kekr ∧ f.dir = e.dir ∧ f.n = e.n ∧ (f.st = .run ∨ f.st = .fin)

theorem Regs.KeepsCall.refl {e : Regs} (hst : e.st = .run) : e.KeepsCall e :=
  ⟨rfl, rfl, rfl, rfl, .inl hst⟩

theorem Regs.KeepsCall.kek_eq {e f : Regs} (h : e.KeepsCall f) : f.kek = e.kek := by
  obtain ⟨hklenr, hkekr, -⟩ := h
  rw [Regs.kek, Regs.kek, hklenr, hkekr]

theorem Regs.keepsCall_advance {e : Regs} (hst : e.st = .run) (a v : Semiblock)
    (q : Option (BitVec 3 × BitVec 2)) : e.KeepsCall ((e.putPair a v).advance q) := by
  obtain ⟨hn, hdir, hklenr, hkekr, -, -, -, hst'⟩ := advance_keep (e.putPair a v) q
  refine ⟨hklenr, hkekr, hdir, hn, ?_⟩
  obtain ⟨-, hfin⟩ | ⟨-, hrun⟩ := hst'
  · exact .inr hfin
  · exact .inl (hrun.trans hst)

/-- In RUN a round step moves on, READ changes no register, and no other instruction but RESET is enabled. -/
theorem exec_keepsCall {i : Instr} {s t : State} (hrun : s.regs.st = .run) (h : exec i s = .next t)
    (hi : i ≠ .reset) : s.regs.KeepsCall t.regs := by
  obtain rfl | ⟨k, d, p, rfl, hst, rfl⟩ | ⟨k, d, p, rfl, hst, rfl⟩ | ⟨x, rfl, hst, rfl⟩ | ⟨rfl, -, -, rfl⟩ |
    ⟨rfl, -, -, rfl⟩ | ⟨rfl, hst, -, rfl⟩ | ⟨rfl, hst, -, rfl⟩ | ⟨rfl, rfl⟩ | ⟨rfl, rfl⟩ := exec_cases i s t h
  · exact .refl hrun
  · nomatch hrun.symm.trans hst
  · nomatch hrun.symm.trans hst
  · nomatch hrun.symm.trans hst
  · exact Regs.keepsCall_advance hrun _ _ _
  · exact Regs.keepsCall_advance hrun _ _ _
  · nomatch hrun.symm.trans hst
  · nomatch hrun.symm.trans hst
  · exact .refl hrun
  · exact absurd rfl hi

/-- Settles O38: what a running call keeps covers the KEK, which is made of `KLENR` and `KEKR`. -/
theorem runningCallKeepsItsKekAndDirection : Obligations.RunningCallKeepsItsKekAndDirection := by
  intro s t i hrun h hi
  have hkeeps := exec_keepsCall hrun h hi
  exact ⟨hkeeps.kek_eq, hkeeps⟩

end Sys2Proof.Machine
end

section
/-! The buffer primitives byte by byte, and which payload bytes a START reads: the proofs of O13 and O39. -/

namespace Sys2Proof.Machine

/-! ### A vector of m bytes -/

/-- A vector of m bytes is its bytes, most significant first: bit b is bit b mod 8 of byte m-1-b/8. -/
theorem eq_of_bytes_eq {m : Nat} {x y : BitVec (8 * m)}
    (h : ∀ k, k < m → x.extractLsb' (8 * (m - 1 - k)) 8 = y.extractLsb' (8 * (m - 1 - k)) 8) : x = y := by
  apply BitVec.eq_of_getLsbD_eq
  intro b hb
  have hbit := congrArg (BitVec.getLsbD · (b % 8)) (h (m - 1 - b / 8) (by omega))
  have hpos : 8 * (m - 1 - (m - 1 - b / 8)) + b % 8 = b := by omega
  simpa [hpos, Nat.mod_lt] using hbit

/-! ### Writing to `DOUT` (20_memory.md rule R63) -/

section
variable {off m : Nat} (d : Vector Byte 40) (v : BitVec (8 * m)) {p : Fin 40}

theorem memWrite_getElem_inside (hlo : off ≤ p.val) (hhi : p.val < off + m) :
    (memWrite d off m v)[p] = v.extractLsb' (8 * (m - 1 - (p.val - off))) 8 := by
  simp [memWrite, hlo, hhi]

theorem memWrite_getElem_outside (h : p.val < off ∨ off + m ≤ p.val) : (memWrite d off m v)[p] = d[p] := by
  have hout : ¬ (off ≤ p.val ∧ p.val < off + m) := by omega
  simp [memWrite, hout]

/-- What a write within `DOUT` put there, a read gives back: byte k of both stands at offset `off + k`. -/
theorem memRead_memWrite (h : off + m ≤ 40) : memRead (memWrite d off m v).toList off m = v := by
  apply eq_of_bytes_eq
  intro k hk
  have hlt : off + k < 40 := by omega
  calc (memRead (memWrite d off m v).toList off m).extractLsb' (8 * (m - 1 - k)) 8
      = (memWrite d off m v).toList.getD (off + k) 0#8 := memRead_byte _ _ _ _ hk
    _ = (memWrite d off m v)[off + k] := by simp [List.getD, hlt]
    _ = v.extractLsb' (8 * (m - 1 - (off + k - off))) 8 :=
        memWrite_getElem_inside d v (p := ⟨off + k, hlt⟩) (Nat.le_add_right _ _) (Nat.add_lt_add_left hk _)
    _ = v.extractLsb' (8 * (m - 1 - k)) 8 := by rw [Nat.add_sub_cancel_left]

end

/-- Settles O13: each byte of a read and of a write, inside the range written and outside it. -/
theorem bufferReadsAndWrites : Obligations.BufferReadsAndWrites :=
  ⟨fun buf off m k _ hk => memRead_byte buf off m k hk,
    fun d _ _ v h =>
      ⟨fun _ => memWrite_getElem_inside d v, fun _ => memWrite_getElem_outside d v, memRead_memWrite d v h⟩⟩

/-! ### What of the payload a START reads (20_memory.md rule R70) -/

/-- Two payloads agree on `KEKBUF` below `KLEN` and on `DIN` below `DLEN`. -/
def PayloadsAgree (klen dlen : Nat) (p q : Payload) : Prop :=
  (∀ k : Fin 32, k.val < klen → p.kekbuf[k] = q.kekbuf[k]) ∧ (∀ k : Fin 40, k.val < dlen → p.din[k] = q.din[k])

theorem latchedKek_congr {klen : Nat} {b b' : Vector Byte 32} (h : ∀ k : Fin 32, k.val < klen → b[k] = b'[k]) :
    latchedKek klen b = latchedKek klen b' := by
  refine congrArg Vector.ofFn (funext fun k => ?_)
  split
  · exact h k ‹_›
  · rfl

theorem take_toList_congr {n len : Nat} {b b' : Vector Byte n} (h : ∀ k : Fin n, k.val < len → b[k] = b'[k]) :
    b.toList.take len = b'.toList.take len := by
  apply List.ext_getElem
  · simp
  · intro k hk _
    obtain ⟨hlen, hn⟩ : k < len ∧ k < n := by simpa using hk
    simpa using h ⟨k, hn⟩ hlen

/-- A call takes of `KEKBUF` what it latches. -/
theorem Regs.load_congr_kekbuf (e : Regs) (dir : Dir) {klen : Nat} {b b' : Vector Byte 32}
    (h : latchedKek klen b = latchedKek klen b') (a : Semiblock) (l : List Semiblock) (j : BitVec 3) (i : BitVec 2) :
    e.load dir klen b a l j i = e.load dir klen b' a l j i := by
  rw [Regs.load, Regs.load, h]

theorem startWrap_eq_of_invalid {klen dlen : Nat} (hv : valid .wrap klen dlen = false) (e : Regs) (p q : Payload) :
    e.startWrap klen dlen p = e.startWrap klen dlen q := by
  rw [startWrap_invalid _ _ _ _ hv, startWrap_invalid _ _ _ _ hv]

theorem PayloadsAgree.startWrap_eq {klen dlen : Nat} {p q : Payload} (h : PayloadsAgree klen dlen p q)
    (e : Regs) : e.startWrap klen dlen p = e.startWrap klen dlen q := by
  obtain ⟨hkek, hdin⟩ := h
  cases hv : valid .wrap klen dlen with
  | false => exact startWrap_eq_of_invalid hv e p q
  | true =>
    rw [startWrap_valid _ _ _ _ hv, startWrap_valid _ _ _ _ hv, take_toList_congr hdin]
    exact e.load_congr_kekbuf _ (latchedKek_congr hkek) _ _ _ _

theorem startUnwrap_eq_of_invalid {klen dlen : Nat} (hv : valid .unwrap klen dlen = false) (e : Regs) (p q : Payload) :
    e.startUnwrap klen dlen p = e.startUnwrap klen dlen q := by
  rw [startUnwrap_invalid _ _ _ _ hv, startUnwrap_invalid _ _ _ _ hv]

theorem PayloadsAgree.startUnwrap_eq {klen dlen : Nat} {p q : Payload} (h : PayloadsAgree klen dlen p q)
    (e : Regs) : e.startUnwrap klen dlen p = e.startUnwrap klen dlen q := by
  obtain ⟨hkek, hdin⟩ := h
  cases hv : valid .unwrap klen dlen with
  | false => exact startUnwrap_eq_of_invalid hv e p q
  | true =>
    rw [startUnwrap_valid _ _ _ _ hv, startUnwrap_valid _ _ _ _ hv, take_toList_congr hdin]
    exact e.load_congr_kekbuf _ (latchedKek_congr hkek) _ _ _ _

/-- The payload acts through the registers of the START only, whether the START is transferred or not. -/
theorem exec_startW_congr {s : State} {klen dlen : Nat} {p q : Payload}
    (h : s.regs.startWrap klen dlen p = s.regs.startWrap klen dlen q) :
    exec (.startW klen dlen p) s = exec (.startW klen dlen q) s := by
  show execStartW klen dlen p s = execStartW klen dlen q s
  rw [execStartW, execStartW, h]

/-- The payload acts through the registers of the START only, whether the START is transferred or not. -/
theorem exec_startU_congr {s : State} {klen dlen : Nat} {p q : Payload}
    (h : s.regs.startUnwrap klen dlen p = s.regs.startUnwrap klen dlen q) :
    exec (.startU klen dlen p) s = exec (.startU klen dlen q) s := by
  show execStartU klen dlen p s = execStartU klen dlen q s
  rw [execStartU, execStartU, h]

/-- Settles O39: payloads that agree below the lengths latch one call, and an invalid START raises its error without
reading the payload. -/
theorem startIgnoresBytesBeyondTheLengths : Obligations.StartIgnoresBytesBeyondTheLengths := by
  intro s klen dlen p q
  refine ⟨fun h => ?agree, fun hv => ?invalidW, fun hv => ?invalidU⟩
  case agree =>
    have hpq : PayloadsAgree klen dlen p q := h
    exact ⟨exec_startW_congr (hpq.startWrap_eq _), exec_startU_congr (hpq.startUnwrap_eq _)⟩
  case invalidW => exact exec_startW_congr (startWrap_eq_of_invalid hv _ p q)
  case invalidU => exact exec_startU_congr (startUnwrap_eq_of_invalid hv _ p q)

end Sys2Proof.Machine
end

section
/-! Command words: what decodes to what, and which words are whose: the proofs of O1, O2, O4 and O5. -/

namespace Sys2Proof.Machine

/-! ### The three patterns (30_encoding.md rules R91 to R94) -/

section
variable {hc : BitVec 18} (pay : Payload)

theorem decode_command_ack (h17 : hc.getLsbD 17 = true) :
    decode (.command hc pay) = .ok (.ack (hc.extractLsb' 0 17)) := by
  simp only [decode, decodeCommand, h17, if_true]

theorem decode_command_startW (h17 : hc.getLsbD 17 = false) (h16 : hc.getLsbD 16 = false) :
    decode (.command hc pay) = .ok (.startW (hcKlen hc) (hcDlen hc) pay) := by
  simp only [decode, decodeCommand, h17, h16, Bool.false_eq_true, if_false]

theorem decode_command_startU (h17 : hc.getLsbD 17 = false) (h16 : hc.getLsbD 16 = true) :
    decode (.command hc pay) = .ok (.startU (hcKlen hc) (hcDlen hc) pay) := by
  simp only [decode, decodeCommand, h17, h16, Bool.false_eq_true, if_false, if_true]

end

/-! ### The fields of an encoded word -/

theorem hcKlen_startWord (d : BitVec 1) {klen : Nat} (dlen : Nat) (h : klen < 256) :
    hcKlen (startWord d klen dlen) = klen := by
  obtain ⟨hfield, -⟩ := startWord_fields d klen dlen
  rw [hcKlen, hfield, BitVec.toNat_ofNat, Nat.mod_eq_of_lt h]

theorem hcDlen_startWord (d : BitVec 1) (klen : Nat) {dlen : Nat} (h : dlen < 256) :
    hcDlen (startWord d klen dlen) = dlen := by
  obtain ⟨-, hfield, -⟩ := startWord_fields d klen dlen
  rw [hcDlen, hfield, BitVec.toNat_ofNat, Nat.mod_eq_of_lt h]

theorem extractLsb'_ackWord (ignored : BitVec 17) : (ackWord ignored).extractLsb' 0 17 = ignored := by
  apply BitVec.eq_of_getLsbD_eq
  intro i hi
  simp [ackWord_getLsbD, hi]

theorem lengthFits_iff (len : Nat) : lengthFits len = true ↔ len < 256 := by
  rw [lengthFits, decide_eq_true_eq]

theorem lengthsFit_iff (klen dlen : Nat) :
    (lengthFits klen && lengthFits dlen) = true ↔ klen < 256 ∧ dlen < 256 := by
  rw [Bool.and_eq_true, lengthFits_iff, lengthFits_iff]

/-- The decoder reads from an encoded word the operands that were put there. -/
theorem decode_encode : (i : Instr) → i.wf = true → decode (encode i) = .ok i
  | .startW klen dlen pay, hwf => by
    obtain ⟨hklen, hdlen⟩ := (lengthsFit_iff klen dlen).mp hwf
    obtain ⟨-, -, h17, h16⟩ := startWord_fields 0#1 klen dlen
    rw [encode, decode_command_startW pay h17 h16, hcKlen_startWord _ _ hklen, hcDlen_startWord _ _ hdlen]
  | .startU klen dlen pay, hwf => by
    obtain ⟨hklen, hdlen⟩ := (lengthsFit_iff klen dlen).mp hwf
    obtain ⟨-, -, h17, h16⟩ := startWord_fields 1#1 klen dlen
    rw [encode, decode_command_startU pay h17 h16, hcKlen_startWord _ _ hklen, hcDlen_startWord _ _ hdlen]
  | .ack ignored, _ => by
    have h17 : (ackWord ignored).getLsbD 17 = true := ackWord_getLsbD ignored 17
    rw [encode, decode_command_ack _ h17, extractLsb'_ackWord]
  | .wstep, _ => rfl
  | .ustep, _ => rfl
  | .wfin, _ => rfl
  | .ufin, _ => rfl
  | .read, _ => rfl
  | .reset, _ => rfl

/-- Settles O1, by the constructor of the instruction. -/
theorem decodeOfEncodeIsTheInstruction : Obligations.DecodeOfEncodeIsTheInstruction := decode_encode

/-- Settles O4: every word written out is the encoding of its instruction, but for the payload beside the ACK. -/
theorem wordsOfTheSpecDecode : Obligations.WordsOfTheSpecDecode := fun pay =>
  ⟨decode_encode (.startW 16 16 pay) rfl, decode_encode (.startU 24 32 pay) rfl,
    decode_encode (.startU 255 7 pay) rfl, decode_command_ack pay rfl,
    decode_encode .wstep rfl, decode_encode .ustep rfl, decode_encode .wfin rfl, decode_encode .ufin rfl,
    decode_encode .read rfl, decode_encode .reset rfl⟩

/-! ### A word is the encoding of what it decodes to -/

theorem ackWord_extractLsb' {hc : BitVec 18} (h17 : hc.getLsbD 17 = true) : ackWord (hc.extractLsb' 0 17) = hc := by
  apply BitVec.eq_of_getLsbD_eq
  intro i hi
  rw [ackWord_getLsbD]
  split
  · simp [*]
  · obtain rfl : i = 17 := by omega
    exact h17.symm

/-- A word with bit 17 clear is the START word of the direction in bit 16 and of its two lengths. -/
theorem startWord_of_word {hc : BitVec 18} (h17 : hc.getLsbD 17 = false) {b : Bool} (h16 : hc.getLsbD 16 = b) :
    startWord (BitVec.ofBool b) (hcKlen hc) (hcDlen hc) = hc := by
  have hbit : hc.extractLsb' 16 1 = BitVec.ofBool b := by
    apply BitVec.eq_of_getLsbD_eq
    intro i hi
    obtain rfl : i = 0 := by omega
    simpa using h16
  rw [← hbit]
  exact word_of_fields hc h17

/-- Both length fields are 8 bits wide. -/
theorem lengthsFit_of_word (hc : BitVec 18) : (lengthFits (hcKlen hc) && lengthFits (hcDlen hc)) = true :=
  (lengthsFit_iff _ _).mpr ⟨(hc.extractLsb' 8 8).isLt, (hc.extractLsb' 0 8).isLt⟩

theorem exists_wf_encode_of_command (hc : BitVec 18) (pay : Payload) :
    ∃ i p, decode (.command hc pay) = .ok i ∧ i.wf = true ∧ encode i = .command hc p := by
  cases h17 : hc.getLsbD 17 with
  | true => exact ⟨_, _, decode_command_ack pay h17, rfl, by rw [encode, ackWord_extractLsb' h17]⟩
  | false =>
    cases h16 : hc.getLsbD 16 with
    | false =>
      have hword : startWord 0#1 (hcKlen hc) (hcDlen hc) = hc := startWord_of_word h17 (b := false) h16
      exact ⟨_, pay, decode_command_startW pay h17 h16, lengthsFit_of_word hc, by rw [encode, hword]⟩
    | true =>
      have hword : startWord 1#1 (hcKlen hc) (hcDlen hc) = hc := startWord_of_word h17 (b := true) h16
      exact ⟨_, pay, decode_command_startU pay h17 h16, lengthsFit_of_word hc, by rw [encode, hword]⟩

/-- Settles O2: by bits 17 and 16. -/
theorem everyCommandWordDecodes : Obligations.EveryCommandWordDecodes := fun hc pay =>
  ⟨decode_command_ack pay, decode_command_startW pay, decode_command_startU pay, exists_wf_encode_of_command hc pay⟩

/-! ### The six valid START words (30_encoding.md rule R97) -/

/-- The words of a KEK of 16, 24 or 32 bytes, forward and then inverse. -/
def validStartWords : List (BitVec 18) :=
  [0x01010#18, 0x01818#18, 0x02020#18, 0x11018#18, 0x11820#18, 0x12028#18]

/-- The lengths and the direction of a valid START leave six words. -/
theorem mem_validStartWords_of_valid {hc : BitVec 18} (h17 : hc.getLsbD 17 = false) {b : Bool}
    (h16 : hc.getLsbD 16 = b) (hv : valid (if b then .unwrap else .wrap) (hcKlen hc) (hcDlen hc) = true) :
    hc ∈ validStartWords := by
  obtain ⟨hklen, hdlen⟩ := (valid_eq_true_iff _ _ _).mp hv
  rw [← startWord_of_word h17 h16, hdlen]
  cases b <;> obtain hk | hk | hk := hklen <;> rw [hk] <;> decide

theorem valid_of_mem_validStartWords : ∀ hc ∈ validStartWords,
    valid (if hc.getLsbD 16 then .unwrap else .wrap) (hcKlen hc) (hcDlen hc) = true := by
  simp only [validStartWords, List.forall_mem_cons, List.not_mem_nil, false_implies, implies_true]
  decide

/-- Settles O5: the two lengths and bit 16 of a valid START determine its word. -/
theorem exactlySixCommandWordsAreValid : Obligations.ExactlySixCommandWordsAreValid := by
  refine ⟨fun dir klen dlen => ?naturals,
    fun hc h17 => ⟨mem_validStartWords_of_valid h17 rfl, valid_of_mem_validStartWords hc⟩, by decide⟩
  case naturals => cases dir <;> exact valid_eq_true_iff _ _ _

end Sys2Proof.Machine
end

section
/-! What the engine shows: the status word and the request on the cipher port: the proofs of O6 and O7. -/

namespace Sys2Proof.Machine

/-! ### The status word (30_encoding.md rule R98) -/

theorem Regs.status_fields (e : Regs) :
    e.status.extractLsb' 0 2 = e.st.bits ∧ e.status.extractLsb' 2 2 = e.res.bits ∧
      e.status.extractLsb' 4 8 = e.olen := by
  refine ⟨?st, ?res, ?olen⟩ <;> apply BitVec.eq_of_getLsbD_eq <;> intro i hi <;>
    rw [BitVec.getLsbD_extractLsb', status_getLsbD]
  case st => rw [if_pos (by omega)]; simp [hi]
  case res => rw [if_neg (by omega), if_pos (by omega)]; simp [hi]
  case olen => rw [if_neg (by omega), if_neg (by omega)]; simp [hi]

/-- While a call runs the status word shows `ST` alone. -/
theorem Regs.InCall.status_eq {e : Regs} (h : e.InCall) : e.status = e.st.bits.setWidth 12 := by
  obtain ⟨-, -, -, -, -, -, hres, holen, -⟩ := h
  rw [Regs.status, hres, holen]
  cases e.st <;> rfl

theorem Regs.Delivered.status_ok {e : Regs} (h : e.Delivered) (hst : e.st = .done) (hok : e.res = .ok) :
    e.status ∈ [0x107#12, 0x187#12, 0x207#12, 0x287#12] := by
  obtain ⟨-, ⟨-, holen, -⟩ | ⟨herr, -⟩ | ⟨herr, -⟩⟩ := h
  · rw [Regs.status, hst, hok]
    obtain h | h | h | h := holen <;> rw [h] <;> decide
  · nomatch hok.symm.trans herr
  · nomatch hok.symm.trans herr

/-- An error is shown with `OLEN` zero. -/
theorem Regs.Delivered.status_error {e : Regs} (h : e.Delivered) (hst : e.st = .done) (hne : e.res ≠ .ok) :
    e.status = 0#8 ++ e.res.bits ++ Seq.done.bits := by
  have holen : e.olen = 0#8 := by
    obtain ⟨-, ⟨hok, -⟩ | ⟨-, holen, -⟩ | ⟨-, holen, -⟩⟩ := h
    · exact absurd hok hne
    · exact holen
    · exact holen
  rw [Regs.status, hst, holen]

theorem Regs.Delivered.res_ne_none {e : Regs} (h : e.Delivered) : e.res ≠ .none := by
  obtain ⟨-, ⟨hres, -⟩ | ⟨hres, -⟩ | ⟨hres, -⟩⟩ := h <;> rw [hres] <;> decide

theorem Regs.deliver_status (e : Regs) (l : List Semiblock) :
    (e.deliver l).status = BitVec.ofNat 8 (8 * l.length) ++ Res.ok.bits ++ Seq.done.bits := rfl

theorem Regs.InCall.wrapFinish_status {e : Regs} (h : e.InCall) :
    e.wrapFinish.status ∈ [0x187#12, 0x207#12, 0x287#12] := by
  rw [Regs.wrapFinish, Regs.deliver_status, List.length_cons, h.length_take_r]
  obtain hn | hn | hn := h.n_cases <;> rw [hn] <;> decide

theorem Regs.InCall.unwrapFinish_status {e : Regs} (h : e.InCall) (ha : e.a = Config.iv) :
    e.unwrapFinish.status ∈ [0x107#12, 0x187#12, 0x207#12] := by
  rw [Regs.unwrapFinish, if_pos ha, Regs.deliver_status, h.length_take_r]
  obtain hn | hn | hn := h.n_cases <;> rw [hn] <;> decide

/-- Settles O6: the fields bit by bit, the values by what the invariant says of `RES` and `OLEN` in each state. -/
theorem statusWordOfEveryState : Obligations.StatusWordOfEveryState := by
  intro e
  refine ⟨e.status_fields, decide_eq_true_iff, decide_eq_true_iff, fun hinv =>
    ⟨fun hst => ?idle, fun hst => ?run, fun hst => ?fin, fun hst hres => ?invalidLength, fun hst hres => ?authFailure,
      fun hst => (hinv.of_done hst).status_ok hst, fun hst => (hinv.of_done hst).res_ne_none,
      fun hst _ => (hinv.of_fin hst).1.wrapFinish_status, fun hst _ => (hinv.of_fin hst).1.unwrapFinish_status⟩⟩
  case idle => rw [hinv.of_idle hst]; rfl
  case run => rw [(hinv.of_run hst).status_eq, hst]; rfl
  case fin => rw [(hinv.of_fin hst).1.status_eq, hst]; rfl
  case invalidLength => rw [(hinv.of_done hst).status_error hst (by simp [hres]), hres]; rfl
  case authFailure => rw [(hinv.of_done hst).status_error hst (by simp [hres]), hres]; rfl

/-! ### The request (30_encoding.md rule R99) -/

theorem PortRequest.keyField_byte (q : PortRequest) (k : Fin 32) :
    q.keyField.extractLsb' (8 * (31 - k.val)) 8 = q.key[k] := by
  have hbyte : q.key.toList.getD (0 + k.val) 0#8 = q.key[k] := by simp
  exact (memRead_byte _ 0 32 k.val k.isLt).trans hbyte

theorem Regs.InCall.klenr_cases {e : Regs} (h : e.InCall) : e.klenr = 16#8 ∨ e.klenr = 24#8 ∨ e.klenr = 32#8 := by
  have hn := h.n_cases
  obtain ⟨-, hklen, -⟩ := h
  bv_omega

/-- `KEKR` holds as many bytes as a KEK of a call has. -/
theorem Regs.InCall.length_kek {e : Regs} (h : e.InCall) : e.kek.kb.length = e.kek.klen := by
  have hle : e.klenr.toNat ≤ 32 := by
    obtain hk | hk | hk := h.klenr_cases <;> rw [hk] <;> decide
  simpa [Regs.kek] using hle

theorem Regs.InCall.kek_wf {e : Regs} (h : e.InCall) : e.kek.wf = true := by
  have hklen : e.kek.klen = 16 ∨ e.kek.klen = 24 ∨ e.kek.klen = 32 := by
    obtain hk | hk | hk := h.klenr_cases <;> simp [Regs.kek, hk]
  exact decide_eq_true ⟨hklen, h.length_kek⟩

/-- Settles O7: a request holds `KLENR` and `KEKR` themselves, and the invariant of a call says what they hold. -/
theorem requestCarriesTheLatchedKek : Obligations.RequestCarriesTheLatchedKek := by
  intro bc e op blk
  have hbyte := (e.request op blk).keyField_byte
  refine ⟨rfl, rfl, rfl, rfl, rfl, hbyte, rfl, rfl, rfl, fun hcall =>
    ⟨hcall.klenr_cases, hcall.length_kek, hcall.kek_wf, fun k hk => ?zero⟩⟩
  case zero =>
    obtain ⟨-, -, -, -, -, hzero, -⟩ := hcall
    exact (hbyte k).trans (hzero k hk)

end Sys2Proof.Machine
end

section
/-! The engine's own turn and what `SEL` selects: the proofs of O3, O26, O28, O29 and O30. -/

namespace Sys2Proof.Machine

/-! ### The selector (30_encoding.md rule R100) -/

theorem Regs.sel_eq {e : Regs} {st : Seq} {dir : Dir} (hst : e.st = st) (hdir : e.dir = dir) :
    e.sel = st.bits ++ dir.bit := by rw [Regs.sel, hst, hdir]

/-- `DIR` is back at its reset value before and after a call. -/
theorem Regs.Inv.dir_of_waiting {e : Regs} (h : e.Inv) (hst : e.st = .idle ∨ e.st = .done) : e.dir = .wrap := by
  obtain hst | hst := hst
  · rw [h.of_idle hst]; rfl
  · obtain ⟨hclear, -⟩ := h.of_done hst
    rw [hclear]; rfl

/-- Settles O3: by `ST`, and by `DIR` where a step is enabled. -/
theorem selectorNamesTheEnabledStep : Obligations.SelectorNamesTheEnabledStep := fun e =>
  ⟨rfl,
    fun hst hdir => ⟨Regs.sel_eq hst hdir, by rw [decode_sel_run e hst, hdir]⟩,
    fun hst hdir => ⟨Regs.sel_eq hst hdir, by rw [decode_sel_run e hst, hdir]⟩,
    fun hst hdir => ⟨Regs.sel_eq hst hdir, by rw [decode_sel_fin e hst, hdir]⟩,
    fun hst hdir => ⟨Regs.sel_eq hst hdir, by rw [decode_sel_fin e hst, hdir]⟩,
    decode_sel_idle e, decode_sel_done e, Regs.Inv.dir_of_waiting⟩

/-- Settles O26: each engine step is guarded by its own `ST` and `DIR`. -/
theorem engineStepsNotEnabledDoNothing : Obligations.EngineStepsNotEnabledDoNothing := fun _ =>
  ⟨fun h => if_neg h, fun h => if_neg h, fun h => if_neg h, fun h => if_neg h⟩

/-! ### The engine's turn -/

/-- Where `SEL` selects no step, the turn is taken and nothing else happens. -/
theorem step_of_waiting {s : State} (hsel : nextStimulus s = .selector s.regs.sel)
    (hst : s.regs.st = .idle ∨ s.regs.st = .done) : step s = .next (takeTurn s) := by
  obtain hst | hst := hst
  · exact step_of_error s .waitsForStart (by rw [hsel, decode_sel_idle _ hst])
  · exact step_of_error s .waitsForAck (by rw [hsel, decode_sel_done _ hst])

/-- Settles O28: the two kinds of engine turn differ in whether there is a turn to take off the list. -/
theorem engineWaitsInIdleAndDone : Obligations.EngineWaitsInIdleAndDone := by
  intro s hst
  refine ⟨fun hs => ?noTurn, fun rest hs => ?engineTurn⟩
  case noTurn => rw [step_of_waiting (nextStimulus_of_nil hs) hst, takeTurn_of_nil hs]
  case engineTurn => rw [step_of_waiting (nextStimulus_of_engineTurn hs) hst, takeTurn_of_cons hs]

/-- The next state of the engine's turn has the registers of the engine step, and no sample is taken. -/
def EngineTurnTo (s t : State) : Prop :=
  step s = .next t ∧ t.regs = engineRegs Config.blockCipher s.regs ∧ t.inputs = s.inputs.tail ∧ t.reads = s.reads

/-- A selected engine step answers the state its `exec` answers, with the turn taken. -/
theorem engineTurnTo_of_exec {s t : State} {i : Instr} (hsel : nextStimulus s = .selector s.regs.sel)
    (hdec : decode (.selector s.regs.sel) = .ok i) (hexec : exec i (takeTurn s) = .next t)
    (h : t.regs = engineRegs Config.blockCipher s.regs ∧ t.inputs = s.inputs.tail ∧ t.reads = s.reads) :
    EngineTurnTo s t :=
  ⟨(step_of_ok s i (by rw [hsel, hdec])).trans hexec, h⟩

theorem exists_engineTurnTo {s : State} (hsel : nextStimulus s = .selector s.regs.sel) : ∃ t, EngineTurnTo s t := by
  cases hst : s.regs.st with
  | idle =>
    exact ⟨takeTurn s, step_of_waiting hsel (.inl hst), by simp [engineRegs, hst], rfl, rfl⟩
  | done =>
    exact ⟨takeTurn s, step_of_waiting hsel (.inr hst), by simp [engineRegs, hst], rfl, rfl⟩
  | run =>
    have hdec := decode_sel_run s.regs hst
    cases hdir : s.regs.dir <;> rw [hdir] at hdec
    · exact ⟨_, engineTurnTo_of_exec hsel hdec (exec_wstep_enabled _ hst hdir) (by simp [engineRegs, hst, hdir])⟩
    · exact ⟨_, engineTurnTo_of_exec hsel hdec (exec_ustep_enabled _ hst hdir) (by simp [engineRegs, hst, hdir])⟩
  | fin =>
    have hdec := decode_sel_fin s.regs hst
    cases hdir : s.regs.dir <;> rw [hdir] at hdec
    · exact ⟨_, engineTurnTo_of_exec hsel hdec (exec_wfin_enabled _ hst hdir) (by simp [engineRegs, hst, hdir])⟩
    · exact ⟨_, engineTurnTo_of_exec hsel hdec (exec_ufin_enabled _ hst hdir) (by simp [engineRegs, hst, hdir])⟩

/-- Settles O29: with no turn left as on its own turn, the engine takes the step that `SEL` selects. -/
theorem engineTurnIsTheEngineStep : Obligations.EngineTurnIsTheEngineStep := by
  intro s rest hs
  have hsel : nextStimulus s = .selector s.regs.sel := by
    obtain hs | ⟨hs, -⟩ := hs
    · exact nextStimulus_of_engineTurn hs
    · exact nextStimulus_of_nil hs
  have htail : s.inputs.tail = rest := by
    obtain hs | ⟨hs, hrest⟩ := hs
    · rw [hs, List.tail_cons]
    · rw [hs, hrest, List.tail_nil]
  exact htail ▸ exists_engineTurnTo hsel

/-! ### Every step answers a next state -/

theorem exists_next_of_ite (c : Prop) [Decidable c] (t u : State) :
    ∃ v, (if c then Host.Outcome.next t else .next u : Host.Outcome State Fault Refusal) = .next v := by
  split <;> exact ⟨_, rfl⟩

/-- No instruction faults or is refused: each has one effect where it is enabled and none elsewhere. -/
theorem exec_total (i : Instr) (s : State) : ∃ t, exec i s = .next t := by
  cases i with
  | startW klen dlen pay => exact exists_next_of_ite _ _ _
  | startU klen dlen pay => exact exists_next_of_ite _ _ _
  | ack ignored => exact exists_next_of_ite _ _ _
  | wstep => exact exists_next_of_ite _ _ _
  | ustep => exact exists_next_of_ite _ _ _
  | wfin => exact exists_next_of_ite _ _ _
  | ufin => exact exists_next_of_ite _ _ _
  | read => exact ⟨_, exec_read s⟩
  | reset => exact ⟨_, exec_reset s⟩

/-- Settles O30: a step runs an instruction or waits. -/
theorem everyStepAnswersANextState : Obligations.EveryStepAnswersANextState := by
  intro s
  cases hdec : decode (nextStimulus s) with
  | ok i => rw [step_of_ok s i hdec]; exact exec_total i _
  | error x => exact ⟨_, step_of_error s x hdec⟩

end Sys2Proof.Machine
end

section
/-! The semiblock pipeline: split and join, the halves of a block, the counter, its bytes and XORCTR: the proofs of
O8 to O12. -/

namespace Sys2Proof.Machine

/-! ### Split and join (40_semiblock.md rules R120 and R121) -/

/-- Two lists of one length are equal when they agree at each position, read with a default. -/
theorem eq_of_getD_eq {α : Type} {l l' : List α} (d : α) (hlen : l.length = l'.length)
    (h : ∀ p, p < l.length → l.getD p d = l'.getD p d) : l = l' := by
  refine List.ext_getElem hlen fun p hp hp' => ?_
  simpa only [List.getD_eq_getElem _ _ hp, List.getD_eq_getElem _ _ hp'] using h p hp

/-- Byte b of the k-th semiblock of a split stands at offset 8k + b of the buffer. -/
theorem split_byte (buf : List Byte) {m k b : Nat} (hk : k < m) (hb : b < 8) :
    semiByte ((split buf m).getD k 0#64) b = buf.getD (8 * k + b) 0#8 := by
  rw [split_getD buf m k hk, loadSemi_byte _ _ _ hb]

theorem split_join (l : List Semiblock) : split (join l) l.length = l := by
  refine eq_of_getD_eq 0#64 (split_length _ _) fun k hk => semi_ext _ _ fun b hb => ?_
  rw [split_length] at hk
  rw [split_byte _ hk hb, join_getD l k b hk hb]

/-- Offset p of the buffer is byte p mod 8 of semiblock p / 8. -/
theorem join_split {buf : List Byte} {m : Nat} (h : buf.length = 8 * m) : join (split buf m) = buf := by
  have hlen : (join (split buf m)).length = 8 * m := by rw [join_length, split_length]
  refine eq_of_getD_eq 0#8 (hlen.trans h.symm) fun p hp => ?_
  have hk : p / 8 < m := by omega
  have hb : p % 8 < 8 := Nat.mod_lt _ (by decide)
  rw [← Nat.div_add_mod p 8, join_getD _ _ _ (by rwa [split_length]) hb, split_byte _ hk hb]

/-- A valid START has a wrap of n semiblocks or an unwrap of n + 1 of them. -/
theorem dlen_of_valid {dir : Dir} {klen dlen : Nat} (h : valid dir klen dlen = true) :
    dlen = 8 * (klen / 8 + dir.num) ∧ 2 ≤ klen / 8 + dir.num ∧ klen / 8 + dir.num ≤ 5 := by
  obtain ⟨hk, hd⟩ := (valid_eq_true_iff dir klen dlen).mp h
  have hdir : dir.num ≤ 1 := by cases dir <;> decide
  omega

/-- Settles O8: both orders of the two, byte by byte. -/
theorem splitAndJoinAreInverse : Obligations.SplitAndJoinAreInverse := by
  refine ⟨fun buf m h => ⟨split_length _ _, join_split h, fun _ _ => split_byte buf⟩,
    fun l => ⟨join_length l, split_join l, join_getD l⟩, fun dir klen dlen pay hv => ?start⟩
  case start =>
    obtain ⟨-, hle⟩ := valid_lengths_le hv
    obtain ⟨hdlen, hlow, hhigh⟩ := dlen_of_valid hv
    refine ⟨_, hlow, hhigh, rfl, ?_⟩
    rw [List.length_take, Vector.length_toList, Nat.min_eq_left hle, hdlen]

/-! ### The halves of a block (40_semiblock.md rule R122) -/

@[simp] theorem hi_cat (a b : Semiblock) : hi (cat a b) = a := BitVec.extractLsb'_append_eq_left

@[simp] theorem lo_cat (a b : Semiblock) : lo (cat a b) = b := BitVec.extractLsb'_append_eq_right

@[simp] theorem cat_hi_lo (x : Block) : cat (hi x) (lo x) = x := BitVec.extractLsb'_append_extractLsb'

/-- Byte k of the half of a block that begins at bit `off`. -/
theorem semiByte_extractLsb' (x : Block) (off : Nat) {k : Nat} (h : k < 8) :
    semiByte (x.extractLsb' off 64) k = x.extractLsb' (off + 8 * (7 - k)) 8 := by
  have hbit : ∀ i, i < 8 → 8 * (7 - k) + i < 64 := by omega
  apply BitVec.eq_of_getLsbD_eq
  intro i hlt
  simp [semiByte, hlt, hbit i hlt, Nat.add_assoc]

theorem hi_byte (x : Block) {k : Nat} (h : k < 8) : semiByte (hi x) k = blockByte x k := by
  have hoff : 64 + 8 * (7 - k) = 8 * (15 - k) := by omega
  rw [hi, semiByte_extractLsb' x 64 h, hoff, blockByte]

theorem lo_byte (x : Block) {k : Nat} (h : k < 8) : semiByte (lo x) k = blockByte x (8 + k) := by
  have hoff : 0 + 8 * (7 - k) = 8 * (15 - (8 + k)) := by omega
  rw [lo, semiByte_extractLsb' x 0 h, hoff, blockByte]

/-- Settles O9: the bytes of a concatenation are those of its halves. -/
theorem blockHalvesAreItsSemiblocks : Obligations.BlockHalvesAreItsSemiblocks := by
  refine ⟨fun a b => ⟨hi_cat a b, lo_cat a b, fun k hk => ⟨?hiByte, ?loByte⟩⟩,
    fun x => ⟨cat_hi_lo x, fun k hk => ⟨hi_byte x hk, lo_byte x hk⟩⟩⟩
  case hiByte => rw [← hi_byte _ hk, hi_cat]
  case loByte => rw [← lo_byte _ hk, lo_cat]

/-! ### The counter (40_semiblock.md rules R124 and R125) -/

/-- Below n, i is the remainder of the step index and j the quotient. -/
theorem position_of_ctr {n i : Nat} (j : Nat) (hin : i < n) : (ctr n j i - 1) / n = j ∧ (ctr n j i - 1) % n = i := by
  have hn : 0 < n := Nat.zero_lt_of_lt hin
  rw [ctr, Nat.add_sub_cancel, Nat.mul_add_div hn, Nat.mul_add_mod, Nat.div_eq_of_lt hin, Nat.mod_eq_of_lt hin]
  exact ⟨rfl, rfl⟩

theorem ctr_injective {n j i j' i' : Nat} (hin : i < n) (hin' : i' < n) (h : ctr n j i = ctr n j' i') :
    j = j' ∧ i = i' := by
  obtain ⟨hdiv, hmod⟩ := position_of_ctr j hin
  obtain ⟨hdiv', hmod'⟩ := position_of_ctr j' hin'
  rw [h] at hdiv hmod
  exact ⟨hdiv.symm.trans hdiv', hmod.symm.trans hmod'⟩

theorem ctr_div_mod (n : Nat) {t : Nat} (ht : 1 ≤ t) : ctr n ((t - 1) / n) ((t - 1) % n) = t := by
  rw [ctr, Nat.div_add_mod, Nat.sub_add_cancel ht]

theorem ctr_le_mul {n j i m : Nat} (hj : j < m) (hin : i < n) : ctr n j i ≤ m * n := by
  calc n * j + i + 1 ≤ n * j + n := Nat.add_le_add_left hin _
    _ = n * (j + 1) := rfl
    _ ≤ n * m := Nat.mul_le_mul_left _ hj
    _ = m * n := Nat.mul_comm n m

/-- The counters of round j are the n values above n·j. -/
theorem map_ctr_range (n j : Nat) : (List.range n).map (ctr n j) = List.range' (1 + n * j) n := by
  rw [List.range'_eq_map_range]
  exact List.map_congr_left fun i _ => by rw [ctr]; omega

/-- The counters of the first m rounds are 1 to m·n in order. -/
theorem flatMap_ctr_range (n m : Nat) :
    (List.range m).flatMap (fun j => (List.range n).map (ctr n j)) = List.range' 1 (m * n) := by
  induction m with
  | zero => rw [Nat.zero_mul]; rfl
  | succ m ih =>
    rw [List.range_succ, List.flatMap_append, ih, List.flatMap_singleton, map_ctr_range, Nat.mul_comm n m,
      List.range'_append_1, Nat.succ_mul]

theorem map_ctr_wrapPositions (n : Nat) :
    (wrapPositions n).map (fun p => ctr n p.1 p.2) = List.range' 1 (6 * n) := by
  simp only [wrapPositions, List.map_flatMap, List.map_map]
  exact flatMap_ctr_range n 6

/-- An unwrap goes through the positions of a wrap backwards. -/
theorem unwrapPositions_eq_reverse (n : Nat) : unwrapPositions n = (wrapPositions n).reverse := by
  rw [unwrapPositions, wrapPositions, List.reverse_flatMap]
  simp only [Function.comp_def, List.map_reverse]

/-- Settles O10: the step index and its position determine each other by division by n. -/
theorem counterRunsThroughEachValueOnce : Obligations.CounterRunsThroughEachValueOnce := by
  refine ⟨fun _ _ _ => rfl, fun n j i hj hin => ⟨Nat.le_add_left 1 _, ctr_le_mul (Nat.lt_succ_of_le hj) hin⟩,
    fun _ _ _ _ _ => ctr_injective, fun n t ht hle => ?onto, map_ctr_wrapPositions, fun n => ?descending⟩
  case onto =>
    have hn : 0 < n := by omega
    have hj : (t - 1) / n < 6 := (Nat.div_lt_iff_lt_mul hn).mpr (by omega)
    exact ⟨_, _, Nat.le_of_lt_succ hj, Nat.mod_lt _ hn, ctr_div_mod n ht⟩
  case descending => rw [unwrapPositions_eq_reverse, List.map_reverse, map_ctr_wrapPositions]

/-! ### BE64 and XORCTR (40_semiblock.md rules R126 and R127) -/

theorem be64_toNat {t : Nat} (h : t < 2 ^ 64) : (be64 t).toNat = t := by
  rw [be64, BitVec.toNat_ofNat, Nat.mod_eq_of_lt h]

theorem be64_byte_toNat {t : Nat} (h : t < 2 ^ 64) (k : Nat) :
    (semiByte (be64 t) k).toNat = (t >>> (8 * (7 - k))) % 256 := by
  rw [semiByte, BitVec.extractLsb'_toNat, be64_toNat h]

/-- A number below 256 has one byte, the last. -/
theorem be64_byte_eq_zero {t k : Nat} (ht : t < 256) (hk : k < 7) : semiByte (be64 t) k = 0#8 := by
  apply BitVec.eq_of_toNat_eq
  have hshift : t < 2 ^ (8 * (7 - k)) :=
    calc t < 2 ^ 8 := ht
      _ ≤ 2 ^ (8 * (7 - k)) := Nat.pow_le_pow_right (by decide) (by omega)
  rw [be64_byte_toNat (by omega), Nat.shiftRight_eq_div_pow, Nat.div_eq_of_lt hshift]
  rfl

theorem be64_lastByte_toNat {t : Nat} (ht : t < 256) : (semiByte (be64 t) 7).toNat = t := by
  rw [be64_byte_toNat (by omega)]
  exact Nat.mod_eq_of_lt ht

/-- Settles O11: a byte is a shift of the number. -/
theorem counterIsEncodedBigEndian : Obligations.CounterIsEncodedBigEndian := by
  intro t ht
  refine ⟨be64_toNat ht, fun k _ => be64_byte_toNat ht k, fun _ hle => ?corner⟩
  case corner =>
    have hbyte : t < 256 := by omega
    exact ⟨fun k => be64_byte_eq_zero hbyte, be64_lastByte_toNat hbyte⟩

theorem xorCtr_byte (s : Semiblock) (t k : Nat) :
    semiByte (xorCtr s t) k = semiByte s k ^^^ semiByte (be64 t) k := BitVec.extractLsb'_xor

@[simp] theorem xorCtr_xorCtr (s : Semiblock) (t : Nat) : xorCtr (xorCtr s t) t = s := by
  rw [xorCtr, xorCtr, BitVec.xor_assoc, BitVec.xor_self, BitVec.xor_zero]

theorem xorCtr_injective {s : Semiblock} {t u : Nat} (ht : t < 2 ^ 64) (hu : u < 2 ^ 64)
    (h : xorCtr s t = xorCtr s u) : t = u := by
  have hbe : be64 t = be64 u := (BitVec.xor_right_inj s).mp h
  rw [← be64_toNat ht, hbe, be64_toNat hu]

/-- Settles O12: the laws of xor, and the bytes of the number. -/
theorem xorWithCounterLaws : Obligations.XorWithCounterLaws := by
  refine ⟨fun s t => ⟨rfl, xorCtr_xorCtr s t, fun k _ => xorCtr_byte s t k⟩, fun _ _ _ => xorCtr_injective,
    fun s t k ht hk => ?unchanged⟩
  case unchanged => rw [xorCtr_byte, be64_byte_eq_zero (by omega) hk, BitVec.xor_zero]

end Sys2Proof.Machine
end

section
/-! What an instruction leaves of the three lists outside the registers: the turns, the requests and the samples: the
proof of O36. -/

namespace Sys2Proof.Machine

/-- An instruction run with the turns it already has leaves those turns, since it reads none of them. -/
theorem exec_keeps_inputs {i : Instr} {s t : State} (h : exec i s = .next t) : t.inputs = s.inputs := by
  have hsame : exec i s = .next (t.setInputs s.inputs) := exec_setInputs i s t s.inputs h
  have ht : t = t.setInputs s.inputs := Host.Outcome.next.inj (h.symm.trans hsame)
  exact (congrArg State.inputs ht).trans (State.setInputs_inputs _ _)

/-- Only READ gives the host a sample (44_host.md rule R203). -/
theorem exec_keeps_reads {i : Instr} {s t : State} (h : exec i s = .next t) (hi : i ≠ .read) : t.reads = s.reads := by
  obtain rfl | ⟨k, d, p, -, -, rfl⟩ | ⟨k, d, p, -, -, rfl⟩ | ⟨x, -, -, rfl⟩ | ⟨-, -, -, rfl⟩ | ⟨-, -, -, rfl⟩ |
    ⟨-, -, -, rfl⟩ | ⟨-, -, -, rfl⟩ | ⟨hread, -⟩ | ⟨-, rfl⟩ := exec_cases i s t h
  any_goals rfl
  exact absurd hread hi

/-- Only an enabled round step puts a request on the port (41_blockcipher_port.md rules R141 and R142). -/
theorem exec_keeps_requests {i : Instr} {s t : State} (h : exec i s = .next t)
    (hw : ¬ (i = .wstep ∧ s.regs.st = .run ∧ s.regs.dir = .wrap))
    (hu : ¬ (i = .ustep ∧ s.regs.st = .run ∧ s.regs.dir = .unwrap)) : t.requests = s.requests := by
  obtain rfl | ⟨k, d, p, -, -, rfl⟩ | ⟨k, d, p, -, -, rfl⟩ | ⟨x, -, -, rfl⟩ | ⟨hi, hst, hdir, -⟩ |
    ⟨hi, hst, hdir, -⟩ | ⟨-, -, -, rfl⟩ | ⟨-, -, -, rfl⟩ | ⟨-, rfl⟩ | ⟨-, rfl⟩ := exec_cases i s t h
  any_goals rfl
  · exact absurd ⟨hi, hst, hdir⟩ hw
  · exact absurd ⟨hi, hst, hdir⟩ hu

/-- Settles O36: by whether the instruction is an enabled WSTEP, an enabled USTEP or neither; an enabled one has one
effect, which holds its request. -/
theorem requestsOnlyFromRoundsAndSamplesOnlyFromRead : Obligations.RequestsOnlyFromRoundsAndSamplesOnlyFromRead := by
  intro s t i h
  refine ⟨exec_keeps_inputs h, exec_keeps_reads h, ?_⟩
  by_cases hw : i = .wstep ∧ s.regs.st = .run ∧ s.regs.dir = .wrap
  · obtain ⟨rfl, hst, hdir⟩ := hw
    cases h.symm.trans (exec_wstep_enabled s hst hdir)
    exact .inl ⟨rfl, hst, hdir, _, rfl⟩
  by_cases hu : i = .ustep ∧ s.regs.st = .run ∧ s.regs.dir = .unwrap
  · obtain ⟨rfl, hst, hdir⟩ := hu
    cases h.symm.trans (exec_ustep_enabled s hst hdir)
    exact .inr (.inl ⟨rfl, hst, hdir, _, rfl⟩)
  · exact .inr (.inr ⟨hw, hu, exec_keeps_requests h hw hu⟩)

end Sys2Proof.Machine
end

section
/-! START.W where the engine is ready: what the valid one latches and what an invalid START of either direction does:
the proofs of O14 and O16. -/

namespace Sys2Proof.Machine

/-! ### An invalid START (42_wrap.md rule R162, 43_unwrap.md rule R182) -/

/-- Not `VALID`, as the condition on the lengths it stands for. -/
theorem valid_eq_false_of_lengths {dir : Dir} {klen dlen : Nat}
    (h : ¬ ((klen = 16 ∨ klen = 24 ∨ klen = 32) ∧ dlen = klen + 8 * dir.num)) : valid dir klen dlen = false :=
  Bool.eq_false_iff.mpr fun hv => h ((valid_eq_true_iff dir klen dlen).mp hv)

/-- Settles O16: raising InvalidLength writes `RES` and `ST` only. -/
theorem invalidStartRaisesInvalidLength : Obligations.InvalidStartRaisesInvalidLength := by
  intro s klen dlen pay hidle
  refine ⟨fun h => ?startW, fun h => ?startU⟩
  case startW =>
    rw [exec_startW_ready _ _ _ _ hidle, startWrap_invalid _ _ _ _ (valid_eq_false_of_lengths h)]
    rfl
  case startU =>
    rw [exec_startU_ready _ _ _ _ hidle, startUnwrap_invalid _ _ _ _ (valid_eq_false_of_lengths h)]
    rfl

/-! ### A valid START.W (42_wrap.md rule R161) -/

theorem startWrap_of_klen {klen : Nat} (hklen : klen = 16 ∨ klen = 24 ∨ klen = 32) (e : Regs) (pay : Payload) :
    e.startWrap klen klen pay =
      e.load .wrap klen pay.kekbuf Config.iv (split (pay.din.toList.take klen) (klen / 8)) 0#3 0#2 :=
  startWrap_valid _ _ _ _ ((valid_eq_true_iff .wrap klen klen).mpr ⟨hklen, rfl⟩)

/-- Byte b of semiblock k of `DIN` stands at offset 8k + b. -/
theorem split_din_byte (din : Vector Byte 40) {len m k b : Nat} (hlen : 8 * m ≤ len) (hk : k < m) (hb : b < 8) :
    semiByte ((split (din.toList.take len) m).getD k 0#64) b = din.toList.getD (8 * k + b) 0#8 := by
  rw [split_byte _ hk hb, getD_take_toList _ _ _ (by omega)]

/-- Settles O14: the latch, register by register. -/
theorem validStartWLoadsAWrapCall : Obligations.ValidStartWLoadsAWrapCall := by
  intro s klen dlen pay hidle hklen hdlen
  subst hdlen
  refine ⟨_, exec_startW_ready _ _ _ _ hidle, ?_⟩
  rw [startWrap_of_klen hklen]
  refine ⟨rfl, fun k hk b => ?semiblock, fun k hk => ?above, ?n, rfl, rfl, rfl, ?klenr, latchedKek_getElem _ _, rfl,
    rfl, rfl, rfl, rfl, rfl, rfl⟩
  case semiblock =>
    rw [State.setRegs_regs, Regs.load_r, registerFile_getElem, split_din_byte _ (by omega) hk b.isLt]
  case above =>
    rw [State.setRegs_regs, Regs.load_r, registerFile_getElem, List.getD_eq_default _ _ (by rwa [split_length])]
  case n => rw [State.setRegs_regs, Regs.load_n, BitVec.toNat_ofNat, Nat.mod_eq_of_lt (by omega)]
  case klenr => rw [State.setRegs_regs, Regs.load_klenr, BitVec.toNat_ofNat, Nat.mod_eq_of_lt (by omega)]

end Sys2Proof.Machine
end

section
/-! One engine step of a wrap: where a WSTEP goes and what it puts, and what WFIN delivers: the proofs of O18 and O20. -/

namespace Sys2Proof.Machine

/-! ### Where the position goes (10_state.md rule R36) -/

/-- Within a round a WSTEP moves to the next semiblock. -/
theorem Regs.wrapRound_within_round (bc : BlockCipher) {e : Regs} (hn : e.n.toNat ≤ 4)
    (hi : e.i.toNat + 1 < e.n.toNat) :
    (e.wrapRound bc).j = e.j ∧ (e.wrapRound bc).i.toNat = e.i.toNat + 1 ∧ (e.wrapRound bc).st = e.st := by
  have hnext : nextWrap e.n e.j e.i = some (e.j, e.i + 1#2) := if_pos hi
  rw [Regs.wrapRound, hnext]
  exact ⟨rfl, show (e.i + 1#2).toNat = _ by bv_omega, rfl⟩

/-- After the last semiblock of a round a WSTEP moves to the first of the next round. -/
theorem Regs.wrapRound_round_end (bc : BlockCipher) {e : Regs} (hi : e.i.toNat + 1 = e.n.toNat)
    (hj : e.j.toNat < 5) :
    (e.wrapRound bc).j.toNat = e.j.toNat + 1 ∧ (e.wrapRound bc).i = 0#2 ∧ (e.wrapRound bc).st = e.st := by
  have hnext : nextWrap e.n e.j e.i = some (e.j + 1#3, 0#2) := (if_neg hi.not_lt).trans (if_pos hj)
  rw [Regs.wrapRound, hnext]
  exact ⟨show (e.j + 1#3).toNat = _ by bv_omega, rfl, rfl⟩

/-- After the last semiblock of the last round a WSTEP stays at the position and goes to FIN. -/
theorem Regs.wrapRound_last (bc : BlockCipher) {e : Regs} (hi : e.i.toNat + 1 = e.n.toNat) (hj : e.j = 5#3) :
    (e.wrapRound bc).j = e.j ∧ (e.wrapRound bc).i = e.i ∧ (e.wrapRound bc).st = .fin := by
  have hnext : nextWrap e.n e.j e.i = none := (nextWrap_eq_none_iff _ _ _).mpr ⟨hi.ge, by rw [hj]; decide⟩
  rw [Regs.wrapRound, hnext]
  exact ⟨rfl, rfl, rfl⟩

/-! ### What a WSTEP puts in `A` and `R[I]` (42_wrap.md rule R163) -/

/-- `B = ENC(KEK, A ∥ R[I])` at the position the engine is at. -/
def Regs.encBlock (bc : BlockCipher) (e : Regs) : Block := bc.enc e.kek (cat e.a (e.readR e.i))

theorem Regs.wrapRound_a (bc : BlockCipher) (e : Regs) :
    (e.wrapRound bc).a = xorCtr (hi (e.encBlock bc)) e.counter := advance_a _ _

theorem Regs.wrapRound_r (bc : BlockCipher) (e : Regs) :
    (e.wrapRound bc).r = e.r.set e.i.toNat (lo (e.encBlock bc)) e.i.isLt := advance_r _ _

theorem Regs.wrapRound_readR (bc : BlockCipher) (e : Regs) (k : BitVec 2) :
    (e.wrapRound bc).readR k = if k = e.i then lo (e.encBlock bc) else e.readR k := by
  rw [← readR_writeR, Regs.readR, Regs.readR]
  simp only [Regs.wrapRound_r, Regs.writeR_r]

/-- Of the other registers a WSTEP moves the position and `ST` only. -/
theorem Regs.wrapRound_keep (bc : BlockCipher) (e : Regs) :
    (e.wrapRound bc).n = e.n ∧ (e.wrapRound bc).dir = e.dir ∧ (e.wrapRound bc).klenr = e.klenr ∧
    (e.wrapRound bc).kekr = e.kekr ∧ (e.wrapRound bc).res = e.res ∧ (e.wrapRound bc).olen = e.olen ∧
    (e.wrapRound bc).dout = e.dout := by
  obtain ⟨a, v, hround⟩ := e.wrapRound_eq_advance bc
  obtain ⟨hn, hdir, hklenr, hkekr, hres, holen, hdout, -⟩ :=
    advance_keep (e.putPair a v) (nextWrap e.n e.j e.i)
  rw [hround]
  exact ⟨hn, hdir, hklenr, hkekr, hres, holen, hdout⟩

/-- Settles O18: the pair from the answer, the position by its three cases, and moving on leaves the rest. -/
theorem wstepDoesOneForwardRound : Obligations.WstepDoesOneForwardRound := by
  intro s b hinv hst hdir hb
  subst hb
  have hn := (hinv.of_run hst).n_cases
  obtain ⟨hkeepN, hkeepDir, hklenr, hkekr, hres, holen, hdout⟩ := s.regs.wrapRound_keep Config.blockCipher
  refine ⟨_, exec_wstep_enabled s hst hdir, s.regs.wrapRound_a _, ?read, fun k hk => ?readOther, fun hi => ?withinRound,
    fun hi hj => ?roundEnd, fun hi hj => Regs.wrapRound_last _ hi hj, hkeepN, hkeepDir.trans hdir, hklenr, hkekr, hres,
    holen, hdout, rfl, rfl, rfl⟩
  case read => exact (s.regs.wrapRound_readR _ _).trans (if_pos rfl)
  case readOther => exact (s.regs.wrapRound_readR _ _).trans (if_neg hk)
  case withinRound => exact hst ▸ Regs.wrapRound_within_round Config.blockCipher (by omega) hi
  case roundEnd => exact hst ▸ Regs.wrapRound_round_end Config.blockCipher hi hj

/-! ### What WFIN delivers (42_wrap.md rule R165) -/

theorem Regs.InCall.wrapFinish_olen {e : Regs} (h : e.InCall) : e.wrapFinish.olen.toNat = 8 * (e.n.toNat + 1) := by
  have hn := h.n_cases
  rw [Regs.wrapFinish, Regs.deliver_olen, List.length_cons, h.length_take_r, BitVec.toNat_ofNat, Nat.mod_eq_of_lt]
  simp only [Config.semiBytes]
  omega

/-- Settles O20: a delivery of `A` and the first `N` semiblocks. -/
theorem wfinDeliversTheWrappedBuffer : Obligations.WfinDeliversTheWrappedBuffer := by
  intro s hinv hst hdir
  obtain ⟨hcall, -⟩ := hinv.of_fin hst
  have ⟨_, hklenr, _⟩ := hcall
  exact ⟨_, exec_wfin_enabled s hst hdir, Machine.deliver_dout _ _, hcall.wrapFinish_olen,
    hcall.wrapFinish_olen.trans (by omega), deliver_eq _ _, rfl, rfl, rfl⟩

end Sys2Proof.Machine
end

section
/-! The loops of `WRAPF` (42_wrap.md rule R166): the length of what they give, and the position of each pass: the proof
of O44. -/

namespace Sys2Proof.Machine

/-- A pass replaces a semiblock of `R`, so the loops keep their number. -/
theorem length_foldl_wrapPass (enc : Kek → Block → Block) (kek : Kek) (n : Nat) (ps : List (Nat × Nat)) (w : Work) :
    (ps.foldl (wrapPass enc kek n) w).r.length = w.r.length := by
  induction ps generalizing w with
  | nil => rfl
  | cons p ps ih => rw [List.foldl_cons, ih, wrapPass, List.length_set]

theorem wrapF_length (enc : Kek → Block → Block) (kek : Kek) (key : List Byte) :
    (wrapF enc kek key).length = 8 * (kek.klen / 8 + 1) := by
  rw [wrapF, join_length, List.length_cons, length_foldl_wrapPass, split_length]

/-- Settles O44: `A` and n semiblocks, for a KEK of 8n bytes. -/
theorem wrapAddsEightBytes : Obligations.WrapAddsEightBytes := by
  intro enc kek key hklen _
  rw [wrapF_length]
  omega

/-! ### The passes in order (42_wrap.md rule R164) -/

theorem length_wrapPositions (n : Nat) : (wrapPositions n).length = 6 * n := by
  rw [← List.length_map (fun p => ctr n p.1 p.2), map_ctr_wrapPositions, List.length_range']

theorem lt_of_mem_wrapPositions {n : Nat} {p : Nat × Nat} (h : p ∈ wrapPositions n) : p.2 < n := by
  simp only [wrapPositions, List.mem_flatMap, List.mem_map, List.mem_range] at h
  obtain ⟨_, -, _, hi, rfl⟩ := h
  exact hi

/-- Pass k (from 0) is at the position whose counter is k + 1. -/
theorem wrapPositions_getElem {n j i k : Nat} (hi : i < n) (hctr : ctr n j i = k + 1)
    (hk : k < (wrapPositions n).length) : (wrapPositions n)[k] = (j, i) := by
  have hmap := List.getElem_of_eq (map_ctr_wrapPositions n) (by rwa [List.length_map] : k < _)
  rw [List.getElem_map, List.getElem_range', Nat.one_mul, Nat.add_comm 1 k, ← hctr] at hmap
  obtain ⟨hj, hi'⟩ := ctr_injective (lt_of_mem_wrapPositions (List.getElem_mem hk)) hi hmap
  exact Prod.ext hj hi'

/-- One pass more, at the position whose counter comes next. -/
theorem wrapPositions_take_succ {n j i k : Nat} (hj : j ≤ 5) (hi : i < n) (hctr : ctr n j i = k + 1) :
    (wrapPositions n).take (k + 1) = (wrapPositions n).take k ++ [(j, i)] := by
  have hk : k < (wrapPositions n).length := by
    have hle : ctr n j i ≤ 6 * n := ctr_le_mul (Nat.lt_succ_of_le hj) hi
    rw [length_wrapPositions]
    omega
  rw [← wrapPositions_getElem hi hctr hk, List.take_append_getElem]

end Sys2Proof.Machine
end

section
/-! A wrap call on the engine: after k of its turns the engine stands at pass k of `WRAPF` with the same `A` and `R`:
the proofs of O40 and O47. -/

namespace Sys2Proof.Machine

/-! ### The engine's turns -/

theorem engineRegs_of_run_wrap (bc : BlockCipher) {e : Regs} (hst : e.st = .run) (hdir : e.dir = .wrap) :
    engineRegs bc e = e.wrapRound bc := by
  simp only [engineRegs, hst, hdir]

theorem engineRegs_of_fin_wrap (bc : BlockCipher) {e : Regs} (hst : e.st = .fin) (hdir : e.dir = .wrap) :
    engineRegs bc e = e.wrapFinish := by
  simp only [engineRegs, hst, hdir]

theorem engineRegs_of_done (bc : BlockCipher) {e : Regs} (hst : e.st = .done) : engineRegs bc e = e := by
  simp only [engineRegs, hst]

/-- The last of k + 1 turns. -/
theorem engineRun_succ (bc : BlockCipher) (k : Nat) (e : Regs) :
    engineRun bc (k + 1) e = engineRegs bc (engineRun bc k e) := by
  induction k generalizing e with
  | zero => rfl
  | succ k ih => exact ih (engineRegs bc e)

/-! ### The position after k rounds -/

/-- A wrap of n semiblocks after k round steps: in RUN at the position whose counter is k + 1, or after all 6n of them
in FIN at (5, n-1) (42_wrap.md rule R164). -/
def Regs.AtWrapRound (n k : Nat) (e : Regs) : Prop :=
  e.n.toNat = n ∧ e.dir = .wrap ∧
  ((e.st = .run ∧ e.j.toNat ≤ 5 ∧ e.i.toNat < n ∧ ctr n e.j.toNat e.i.toNat = k + 1) ∨
    (e.st = .fin ∧ e.j = 5#3 ∧ e.i.toNat + 1 = n ∧ k = 6 * n))

/-- Before 6n round steps the engine is in RUN. -/
theorem Regs.AtWrapRound.run_of_lt {n k : Nat} {e : Regs} (h : e.AtWrapRound n k) (hk : k < 6 * n) :
    e.st = .run ∧ e.j.toNat ≤ 5 ∧ e.i.toNat < n ∧ ctr n e.j.toNat e.i.toNat = k + 1 := by
  obtain ⟨-, -, hrun | ⟨-, -, -, hlast⟩⟩ := h
  · exact hrun
  · exact absurd hlast hk.ne

/-- After 6n round steps the engine is in FIN: no position has a larger counter. -/
theorem Regs.AtWrapRound.fin_of_eq {n : Nat} {e : Regs} (h : e.AtWrapRound n (6 * n)) :
    e.st = .fin ∧ e.j = 5#3 ∧ e.i.toNat + 1 = n := by
  obtain ⟨-, -, ⟨-, hj, hi, hctr⟩ | ⟨hst, hj, hi, -⟩⟩ := h
  · have hle : ctr n e.j.toNat e.i.toNat ≤ 6 * n := ctr_le_mul (Nat.lt_succ_of_le hj) hi
    omega
  · exact ⟨hst, hj, hi⟩

/-- A round step goes to the position with the next counter, or after the last to FIN. -/
theorem Regs.AtWrapRound.wrapRound (bc : BlockCipher) {n k : Nat} {e : Regs} (h : e.AtWrapRound n k) (hn : n ≤ 4)
    (hk : k < 6 * n) : (e.wrapRound bc).AtWrapRound n (k + 1) := by
  obtain ⟨hst, hj, hi, hctr⟩ := h.run_of_lt hk
  obtain ⟨rfl, hdir, -⟩ := h
  obtain ⟨hn', hdir', -⟩ := e.wrapRound_keep bc
  refine ⟨congrArg BitVec.toNat hn', hdir'.trans hdir, ?_⟩
  rw [ctr] at hctr
  obtain hwithin | hend : e.i.toNat + 1 < e.n.toNat ∨ e.i.toNat + 1 = e.n.toNat := by omega
  · obtain ⟨hj', hi', hst'⟩ := Regs.wrapRound_within_round bc hn hwithin
    rw [hj', hi', hst', ctr]
    exact .inl ⟨hst, hj, hwithin, by omega⟩
  obtain hround | hlast : e.j.toNat < 5 ∨ e.j.toNat = 5 := by omega
  · obtain ⟨hj', hi', hst'⟩ := Regs.wrapRound_round_end bc hend hround
    rw [hj', hi', hst', ctr, Nat.mul_succ]
    exact .inl ⟨hst, hround, Nat.zero_lt_of_lt hi, by simp only [BitVec.toNat_ofNat]; omega⟩
  · obtain ⟨hj', hi', hst'⟩ := Regs.wrapRound_last bc hend (BitVec.eq_of_toNat_eq hlast)
    rw [hj', hi', hst']
    rw [hlast] at hctr
    exact .inr ⟨rfl, BitVec.eq_of_toNat_eq hlast, hend, by omega⟩

/-! ### `A` and `R` after k rounds -/

/-- The variables of the loops, as the engine holds them: `A` and `R[0..N-1]`. -/
def Regs.work (e : Regs) : Work := { a := e.a, r := e.r.toList.take e.n.toNat }

theorem Regs.wrapFinish_eq_deliver_work (e : Regs) : e.wrapFinish = e.deliver (e.work.a :: e.work.r) := rfl

/-- A round step is one pass of the loop body at the engine's position. -/
theorem Regs.work_wrapRound (bc : BlockCipher) {e : Regs} (hi : e.i.toNat < e.n.toNat) :
    (e.wrapRound bc).work = wrapPass bc.enc e.kek e.n.toNat e.work (e.j.toNat, e.i.toNat) := by
  obtain ⟨hn, -⟩ := e.wrapRound_keep bc
  have hread : (e.r.toList.take e.n.toNat).getD e.i.toNat 0#64 = e.readR e.i := by
    simp [List.getD, hi, e.i.isLt, Regs.readR]
  rw [Regs.work, Regs.wrapRound_a, Regs.wrapRound_r, hn, Vector.toList_set, List.take_set]
  simp only [wrapPass, Regs.work, hread, Regs.encBlock, Regs.counter]

/-- A wrap after k round steps from the variables w: the position, the KEK, and the variables after k passes. -/
structure Regs.AfterWrapRounds (bc : BlockCipher) (kek : Kek) (w : Work) (n k : Nat) (e : Regs) : Prop where
  at_round : e.AtWrapRound n k
  kek_eq : e.kek = kek
  work_eq : e.work = ((wrapPositions n).take k).foldl (wrapPass bc.enc kek n) w

/-- The engine's turn is the next round and the next pass. -/
theorem Regs.AfterWrapRounds.turn {bc : BlockCipher} {kek : Kek} {w : Work} {n k : Nat} {e : Regs}
    (h : e.AfterWrapRounds bc kek w n k) (hn : n ≤ 4) (hk : k < 6 * n) :
    (engineRegs bc e).AfterWrapRounds bc kek w n (k + 1) := by
  obtain ⟨hround, hkek, hwork⟩ := h
  obtain ⟨hst, hj, hi, hctr⟩ := hround.run_of_lt hk
  have ⟨hneq, hdir, _⟩ := hround
  rw [engineRegs_of_run_wrap bc hst hdir]
  refine ⟨hround.wrapRound bc hn hk, ?kek, ?work⟩
  case kek =>
    obtain ⟨-, -, hklenr, hkekr, -⟩ := e.wrapRound_keep bc
    rw [← hkek, Regs.kek, Regs.kek, hklenr, hkekr]
  case work =>
    rw [Regs.work_wrapRound bc (hneq ▸ hi), wrapPositions_take_succ hj hi hctr, List.foldl_append, ← hwork, hkek,
      hneq, List.foldl_cons, List.foldl_nil]

/-! ### From a valid START.W -/

/-- Up to its length a register file is the list it was made from. -/
theorem take_registerFile {l : List Semiblock} (h : l.length ≤ 4) : (registerFile l).toList.take l.length = l := by
  refine List.ext_getElem (by simp [h]) fun k _ hk => ?_
  have hk4 : k < 4 := Nat.lt_of_lt_of_le hk h
  simpa [hk] using registerFile_getElem l ⟨k, hk4⟩

/-- The KEK a valid START latches is the first `KLEN` bytes of `KEKBUF` (10_state.md rule R43). -/
theorem Regs.load_kek (e : Regs) (dir : Dir) {klen : Nat} (hklen : klen < 256) (kekbuf : Vector Byte 32)
    (a : Semiblock) (semis : List Semiblock) (j : BitVec 3) (i : BitVec 2) :
    (e.load dir klen kekbuf a semis j i).kek = { klen := klen, kb := kekbuf.toList.take klen } := by
  have hlatched : (latchedKek klen kekbuf).toList.take klen = kekbuf.toList.take klen :=
    take_toList_congr fun k hk => (latchedKek_getElem klen kekbuf k).trans (if_pos hk)
  rw [Regs.kek, Regs.load_klenr, Regs.load_kekr, BitVec.toNat_ofNat, Nat.mod_eq_of_lt hklen, hlatched]

/-- The KEK a call of the payload latches. -/
def callKek (pay : Payload) (klen : Nat) : Kek := { klen := klen, kb := pay.kekbuf.toList.take klen }

/-- What the variables of the loops are when `WRAPF` begins. -/
def wrapInit (n : Nat) (key : List Byte) : Work := { a := Config.iv, r := split key n }

section
variable (bc : BlockCipher) (e : Regs) (pay : Payload) {n : Nat} (hn : n = 2 ∨ n = 3 ∨ n = 4)

include hn

theorem Regs.startWrap_afterWrapRounds :
    (e.startWrap (8 * n) (8 * n) pay).AfterWrapRounds bc (callKek pay (8 * n))
      (wrapInit n (pay.din.toList.take (8 * n))) n 0 := by
  have hdiv : 8 * n / 8 = n := Nat.mul_div_cancel_left n (by decide)
  have hmod : n % 2 ^ 3 = n := Nat.mod_eq_of_lt (by omega)
  rw [startWrap_of_klen (by omega), hdiv]
  have hfits : 8 * n < 256 := by omega
  refine ⟨⟨?n, rfl, .inl ⟨rfl, Nat.zero_le 5, ?i, rfl⟩⟩, e.load_kek _ hfits _ _ _ _ _, ?work⟩
  case n => rw [Regs.load_n, hdiv, BitVec.toNat_ofNat, hmod]
  case i => rw [Regs.load_i, BitVec.toNat_ofNat]; omega
  case work =>
    have hlen := split_length (pay.din.toList.take (8 * n)) n
    have htake := take_registerFile (l := split (pay.din.toList.take (8 * n)) n) (by omega)
    rw [hlen] at htake
    rw [Regs.work, Regs.load_n, hdiv, BitVec.toNat_ofNat, hmod, Regs.load_r, htake]
    rfl

theorem engineRun_afterWrapRounds {k : Nat} (hk : k ≤ 6 * n) :
    (engineRun bc k (e.startWrap (8 * n) (8 * n) pay)).AfterWrapRounds bc (callKek pay (8 * n))
      (wrapInit n (pay.din.toList.take (8 * n))) n k := by
  induction k with
  | zero => exact e.startWrap_afterWrapRounds bc pay hn
  | succ k ih =>
    rw [engineRun_succ]
    exact (ih (Nat.le_of_succ_le hk)).turn (by omega) hk

/-- After all 6n rounds the engine holds the variables as the loops of `WRAPF` leave them. -/
theorem engineRun_work_eq_wrapF {f : Regs} (hf : f = engineRun bc (6 * n) (e.startWrap (8 * n) (8 * n) pay)) :
    f.work.r.length = n ∧
      join (f.work.a :: f.work.r) = wrapF bc.enc (callKek pay (8 * n)) (pay.din.toList.take (8 * n)) := by
  obtain ⟨-, -, hwork⟩ := engineRun_afterWrapRounds bc e pay hn (le_refl (6 * n))
  rw [List.take_of_length_le (length_wrapPositions n).le, ← hf] at hwork
  rw [hwork, length_foldl_wrapPass]
  refine ⟨split_length _ _, ?_⟩
  simp only [wrapF, callKek, wrapInit, Nat.mul_div_cancel_left n (show 0 < 8 by decide)]

/-- WFIN then delivers them. -/
theorem engineRun_startWrap :
    engineRun bc (6 * n + 1) (e.startWrap (8 * n) (8 * n) pay) =
      { Regs.reset with
        st := .done, res := .ok, olen := BitVec.ofNat 8 (8 * n + 8),
        dout := Vector.ofFn fun p =>
          (wrapF bc.enc (callKek pay (8 * n)) (pay.din.toList.take (8 * n))).getD p.val 0#8 } := by
  obtain ⟨hround, -, -⟩ := engineRun_afterWrapRounds bc e pay hn (le_refl (6 * n))
  obtain ⟨hst, -⟩ := hround.fin_of_eq
  obtain ⟨-, hdir, -⟩ := hround
  obtain ⟨hlen, hjoin⟩ := engineRun_work_eq_wrapF bc e pay hn rfl
  rw [engineRun_succ, engineRegs_of_fin_wrap bc hst hdir, Regs.wrapFinish_eq_deliver_work, deliver_closed, hjoin,
    List.length_cons, hlen, Nat.mul_succ]

end

/-- Settles O40: k rounds after the START, read off at k < 6n and at k = 6n. -/
theorem wrapTakesSixNRoundSteps : Obligations.WrapTakesSixNRoundSteps := by
  intro bc e n k pay _ hn hk f hf
  subst hf
  obtain ⟨hround, -, -⟩ := engineRun_afterWrapRounds bc e pay hn hk
  have ⟨hn', hdir, _⟩ := hround
  refine ⟨hn', hdir, hround.run_of_lt, fun hlast => ?_⟩
  subst hlast
  exact hround.fin_of_eq

/-- Settles O47: the delivery of what `WRAPF` gives, in closed form; in DONE the engine waits. -/
theorem wrapCallComputesWrapf : Obligations.WrapCallComputesWrapf := by
  intro bc klen pay hklen kek out f hkek hout hf
  obtain ⟨n, hn, rfl⟩ : ∃ n, (n = 2 ∨ n = 3 ∨ n = 4) ∧ klen = 8 * n := ⟨klen / 8, by omega, by omega⟩
  rw [Nat.mul_div_cancel_left n (by decide), engineRun_startWrap bc _ pay hn] at hf
  rw [hout, hkek]
  exact ⟨hf, engineRegs_of_done bc (by rw [hf])⟩

end Sys2Proof.Machine
end

section
/-! A valid START.U: what it latches: the proof of O15. -/

namespace Sys2Proof.Machine

theorem startUnwrap_of_klen {klen : Nat} (hklen : klen = 16 ∨ klen = 24 ∨ klen = 32) (e : Regs) (pay : Payload) :
    e.startUnwrap klen (klen + 8) pay =
      e.load .unwrap klen pay.kekbuf ((split (pay.din.toList.take (klen + 8)) (klen / 8 + 1)).headD 0#64)
        (split (pay.din.toList.take (klen + 8)) (klen / 8 + 1)).tail 5#3 (BitVec.ofNat 2 (klen / 8 - 1)) :=
  startUnwrap_valid _ _ _ _ ((valid_eq_true_iff .unwrap klen (klen + 8)).mpr ⟨hklen, rfl⟩)

/-- The first semiblock goes to `A`. -/
theorem headD_eq_getD_zero {α : Type} (l : List α) (d : α) : l.headD d = l.getD 0 d := by
  cases l <;> rfl

/-- The semiblocks after the first go to `R`. -/
theorem getD_tail {α : Type} (l : List α) (k : Nat) (d : α) : l.tail.getD k d = l.getD (k + 1) d := by
  cases l <;> rfl

/-- Settles O15: the latch, register by register. -/
theorem validStartULoadsAnUnwrapCall : Obligations.ValidStartULoadsAnUnwrapCall := by
  intro s klen dlen pay hidle hklen hdlen
  subst hdlen
  refine ⟨_, exec_startU_ready _ _ _ _ hidle, ?_⟩
  rw [startUnwrap_of_klen hklen]
  refine ⟨fun b => ?first, fun k hk b => ?semiblock, fun k hk => ?above, ?n, rfl, rfl, ?i, ?klenr,
    latchedKek_getElem _ _, rfl, rfl, rfl, rfl, rfl, rfl, rfl⟩
  case first =>
    rw [State.setRegs_regs, Regs.load_a, headD_eq_getD_zero,
      split_din_byte _ (by omega) (Nat.succ_pos _) b.isLt, Nat.mul_zero, Nat.zero_add]
  case semiblock =>
    rw [State.setRegs_regs, Regs.load_r, registerFile_getElem, getD_tail,
      split_din_byte _ (by omega) (Nat.succ_lt_succ hk) b.isLt]
  case above =>
    rw [State.setRegs_regs, Regs.load_r, registerFile_getElem, getD_tail,
      List.getD_eq_default _ _ (by rw [split_length]; omega)]
  case n => rw [State.setRegs_regs, Regs.load_n, BitVec.toNat_ofNat, Nat.mod_eq_of_lt (by omega)]
  case i => rw [State.setRegs_regs, Regs.load_i, BitVec.toNat_ofNat]; omega
  case klenr => rw [State.setRegs_regs, Regs.load_klenr, BitVec.toNat_ofNat, Nat.mod_eq_of_lt (by omega)]

end Sys2Proof.Machine
end

section
/-! One engine step of an unwrap: where a USTEP goes and what it puts, that it undoes a WSTEP, and what UFIN does: the
proofs of O19, O21 and O43. -/

namespace Sys2Proof.Machine

/-! ### Where the position goes (10_state.md rule R36) -/

/-- Within a round a USTEP moves to the semiblock before. -/
theorem Regs.unwrapRound_within_round (bc : BlockCipher) {e : Regs} (hi : 0 < e.i.toNat) :
    (e.unwrapRound bc).j = e.j ∧ (e.unwrapRound bc).i.toNat + 1 = e.i.toNat ∧ (e.unwrapRound bc).st = e.st := by
  have hnext : nextUnwrap e.n e.j e.i = some (e.j, e.i - 1#2) := if_pos hi
  rw [Regs.unwrapRound, hnext]
  exact ⟨rfl, show (e.i - 1#2).toNat + 1 = _ by bv_omega, rfl⟩

/-- After the first semiblock of a round a USTEP moves to the last of the round before; `n - 1` fits the 2-bit `I`. -/
theorem Regs.unwrapRound_round_end (bc : BlockCipher) {e : Regs} (hn : 0 < e.n.toNat ∧ e.n.toNat ≤ 4)
    (hi : e.i = 0#2) (hj : 0 < e.j.toNat) :
    (e.unwrapRound bc).j.toNat + 1 = e.j.toNat ∧ (e.unwrapRound bc).i.toNat + 1 = e.n.toNat ∧
      (e.unwrapRound bc).st = e.st := by
  have hfirst : ¬ 0 < e.i.toNat := by rw [hi]; decide
  have hnext : nextUnwrap e.n e.j e.i = some (e.j - 1#3, (e.n - 1#3).setWidth 2) :=
    (if_neg hfirst).trans (if_pos hj)
  have hlast : ((e.n - 1#3).setWidth 2).toNat + 1 = e.n.toNat := by bv_omega
  rw [Regs.unwrapRound, hnext]
  exact ⟨show (e.j - 1#3).toNat + 1 = _ by bv_omega, hlast, rfl⟩

/-- After the first semiblock of round 0 a USTEP stays at the position and goes to FIN. -/
theorem Regs.unwrapRound_last (bc : BlockCipher) {e : Regs} (hi : e.i = 0#2) (hj : e.j = 0#3) :
    (e.unwrapRound bc).j = e.j ∧ (e.unwrapRound bc).i = e.i ∧ (e.unwrapRound bc).st = .fin := by
  have hnext : nextUnwrap e.n e.j e.i = none :=
    (nextUnwrap_eq_none_iff _ _ _).mpr ⟨by rw [hi]; rfl, by rw [hj]; rfl⟩
  rw [Regs.unwrapRound, hnext]
  exact ⟨rfl, rfl, rfl⟩

/-! ### What a USTEP puts in `A` and `R[I]` (43_unwrap.md rule R183) -/

/-- `B = DEC(KEK, XORCTR(A, t) ∥ R[I])` at the position the engine is at. -/
def Regs.decBlock (bc : BlockCipher) (e : Regs) : Block := bc.dec e.kek (cat (xorCtr e.a e.counter) (e.readR e.i))

theorem Regs.unwrapRound_a (bc : BlockCipher) (e : Regs) : (e.unwrapRound bc).a = hi (e.decBlock bc) := advance_a _ _

theorem Regs.unwrapRound_r (bc : BlockCipher) (e : Regs) :
    (e.unwrapRound bc).r = e.r.set e.i.toNat (lo (e.decBlock bc)) e.i.isLt := advance_r _ _

theorem Regs.unwrapRound_readR (bc : BlockCipher) (e : Regs) (k : BitVec 2) :
    (e.unwrapRound bc).readR k = if k = e.i then lo (e.decBlock bc) else e.readR k := by
  rw [← readR_writeR, Regs.readR, Regs.readR]
  simp only [Regs.unwrapRound_r, Regs.writeR_r]

/-- Of the other registers a USTEP moves the position and `ST` only. -/
theorem Regs.unwrapRound_keep (bc : BlockCipher) (e : Regs) :
    (e.unwrapRound bc).n = e.n ∧ (e.unwrapRound bc).dir = e.dir ∧ (e.unwrapRound bc).klenr = e.klenr ∧
    (e.unwrapRound bc).kekr = e.kekr ∧ (e.unwrapRound bc).res = e.res ∧ (e.unwrapRound bc).olen = e.olen ∧
    (e.unwrapRound bc).dout = e.dout := by
  obtain ⟨a, v, hround⟩ := e.unwrapRound_eq_advance bc
  obtain ⟨hn, hdir, hklenr, hkekr, hres, holen, hdout, -⟩ :=
    advance_keep (e.putPair a v) (nextUnwrap e.n e.j e.i)
  rw [hround]
  exact ⟨hn, hdir, hklenr, hkekr, hres, holen, hdout⟩

/-- Settles O19: the pair from the answer, the position by its three cases, and moving on leaves the rest. -/
theorem ustepDoesOneInverseRound : Obligations.UstepDoesOneInverseRound := by
  intro s c b hinv hst hdir hc hb
  subst hc hb
  have hn := (hinv.of_run hst).n_cases
  obtain ⟨hkeepN, hkeepDir, hklenr, hkekr, hres, holen, hdout⟩ := s.regs.unwrapRound_keep Config.blockCipher
  refine ⟨_, exec_ustep_enabled s hst hdir, s.regs.unwrapRound_a _, ?read, fun k hk => ?readOther,
    fun hi => ?withinRound, fun hi hj => ?roundEnd, fun hi hj => ?last, hkeepN, hkeepDir.trans hdir, hklenr, hkekr,
    hres, holen, hdout, rfl, rfl, rfl⟩
  case read => exact (s.regs.unwrapRound_readR _ _).trans (if_pos rfl)
  case readOther => exact (s.regs.unwrapRound_readR _ _).trans (if_neg hk)
  case withinRound => exact hst ▸ Regs.unwrapRound_within_round Config.blockCipher hi
  case roundEnd => exact hst ▸ Regs.unwrapRound_round_end Config.blockCipher (by omega) hi hj
  case last =>
    obtain ⟨hj', hi', hfin⟩ := Regs.unwrapRound_last Config.blockCipher hi hj
    exact ⟨hj'.trans hj, hi'.trans hi, hfin⟩

/-! ### A USTEP undoes a WSTEP (43_unwrap.md rule R185) -/

/-- Settles O43: the two XORs with one counter cancel, so the block deciphered is the block that was enciphered. -/
theorem ustepUndoesWstep : Obligations.UstepUndoesWstep := by
  intro bc hbc e f hwf hn hj hi hklenr hkekr ha hr
  have hkek : f.kek = e.kek := by rw [Regs.kek, Regs.kek, hklenr, hkekr]
  have hcounter : f.counter = e.counter := by rw [Regs.counter, Regs.counter, hn, hj, hi]
  obtain ⟨hdec, -⟩ := hbc e.kek hwf (cat e.a (e.readR e.i))
  have hblock : f.decBlock bc = cat e.a (e.readR e.i) := by
    rw [Regs.wrapRound_a] at ha
    rw [Regs.wrapRound_readR, if_pos rfl] at hr
    rw [Regs.decBlock, hkek, hcounter, hi, ha, hr, xorCtr_xorCtr, cat_hi_lo]
    exact hdec
  rw [Regs.unwrapRound_a, Regs.unwrapRound_readR, hblock, if_pos hi.symm]
  exact ⟨hi_cat _ _, lo_cat _ _⟩

/-! ### What UFIN does (43_unwrap.md rule R186, 60_exceptions.md rule R226) -/

theorem Regs.unwrapFinish_of_iv {e : Regs} (ha : e.a = Config.iv) : e.unwrapFinish = e.deliver e.work.r := if_pos ha

theorem Regs.InCall.unwrapFinish_olen {e : Regs} (h : e.InCall) (ha : e.a = Config.iv) :
    e.unwrapFinish.olen.toNat = 8 * e.n.toNat := by
  have hn := h.n_cases
  have hlen : e.work.r.length = e.n.toNat := h.length_take_r
  rw [Regs.unwrapFinish_of_iv ha, Regs.deliver_olen, hlen, BitVec.toNat_ofNat, Nat.mod_eq_of_lt]
  simp only [Config.semiBytes]
  omega

/-- A call has no output yet, so nothing of it is left where the check fails. -/
theorem Regs.InCall.unwrapFinish_of_ne_iv {e : Regs} (h : e.InCall) (ha : e.a ≠ Config.iv) :
    e.unwrapFinish = { Regs.reset with st := .done, res := .authFailure } := by
  obtain ⟨-, -, -, -, -, -, -, holen, hdout⟩ := h
  rw [Regs.unwrapFinish, if_neg ha, Regs.raise, Regs.clearWorking, holen, hdout]
  rfl

/-- Settles O21: by whether `A` is `IV`, a delivery of the first `N` semiblocks or AuthenticationFailure. -/
theorem ufinChecksAThenDelivers : Obligations.UfinChecksAThenDelivers := by
  intro s hinv hst hdir
  obtain ⟨hcall, -⟩ := hinv.of_fin hst
  rw [exec_ufin_enabled s hst hdir]
  refine ⟨fun ha => ⟨_, rfl, ?delivered⟩, fun ha => ?failed⟩
  case delivered =>
    have ⟨_, hklenr, _⟩ := hcall
    have holen := hcall.unwrapFinish_olen ha
    refine ⟨?dout, holen, BitVec.eq_of_toNat_eq (holen.trans hklenr.symm), ?rest, rfl, rfl, rfl⟩ <;>
      rw [State.setRegs_regs, Regs.unwrapFinish_of_iv ha]
    case dout => exact Machine.deliver_dout _ _
    case rest => exact deliver_eq _ _
  case failed => rw [hcall.unwrapFinish_of_ne_iv ha]; rfl

end Sys2Proof.Machine
end

section
/-! The loops of `UNWRAPF` (43_unwrap.md rule R187): the length of what they give, that they undo the loops of `WRAPF`,
and the position of each pass: the proofs of O45 and O46. -/

namespace Sys2Proof.Machine

/-- A pass replaces a semiblock of `R`, so the loops keep their number. -/
theorem length_foldl_unwrapPass (dec : Kek → Block → Block) (kek : Kek) (n : Nat) (ps : List (Nat × Nat))
    (w : Work) : (ps.foldl (unwrapPass dec kek n) w).r.length = w.r.length := by
  induction ps generalizing w with
  | nil => rfl
  | cons p ps ih => rw [List.foldl_cons, ih, unwrapPass, List.length_set]

/-- What the variables of the loops are when `UNWRAPF` begins. -/
def unwrapInit (n : Nat) (w : List Byte) : Work := { a := (split w (n + 1)).headD 0#64, r := (split w (n + 1)).tail }

theorem unwrapLoops_eq_foldl (dec : Kek → Block → Block) (kek : Kek) (w : List Byte) :
    unwrapLoops dec kek w =
      (unwrapPositions (kek.klen / 8)).foldl (unwrapPass dec kek (kek.klen / 8)) (unwrapInit (kek.klen / 8) w) := rfl

theorem length_unwrapLoops_r (dec : Kek → Block → Block) (kek : Kek) (w : List Byte) :
    (unwrapLoops dec kek w).r.length = kek.klen / 8 := by
  rw [unwrapLoops_eq_foldl, length_foldl_unwrapPass, unwrapInit, List.length_tail, split_length, Nat.add_sub_cancel]

section
variable {dec : Kek → Block → Block} {kek : Kek} {w : List Byte}

theorem unwrapF_eq_some_iff {key : List Byte} :
    unwrapF dec kek w = some key ↔
      (unwrapLoops dec kek w).a = Config.iv ∧ join (unwrapLoops dec kek w).r = key := by
  simp only [unwrapF, Option.ite_none_right_eq_some, Option.some_inj]

theorem unwrapF_eq_none_iff : unwrapF dec kek w = none ↔ (unwrapLoops dec kek w).a ≠ Config.iv := by
  simp only [unwrapF, ite_eq_right_iff, reduceCtorEq, imp_false, ne_eq]

end

/-- Settles O45: the check, and n semiblocks for a KEK of 8n bytes. -/
theorem unwrapGivesAllBytesOrNone : Obligations.UnwrapGivesAllBytesOrNone := by
  intro dec kek w hklen _
  refine ⟨fun ha => ⟨_, unwrapF_eq_some_iff.mpr ⟨ha, rfl⟩, ?length⟩, unwrapF_eq_none_iff.mpr⟩
  case length =>
    rw [join_length, length_unwrapLoops_r]
    omega

/-! ### The round trip (43_unwrap.md rule R189) -/

/-- `UNWRAPF` begins with the variables whose join it is given. -/
theorem unwrapInit_join {n : Nat} {w : Work} (h : w.r.length = n) : unwrapInit n (join (w.a :: w.r)) = w := by
  subst h
  rw [unwrapInit, ← List.length_cons (a := w.a), split_join]
  rfl

section
variable {bc : BlockCipher} (hbc : bc.BcInv) {kek : Kek} (hwf : kek.wf = true)

include hbc hwf

/-- A pass of `UNWRAPF` takes back the pass of `WRAPF` at its position. -/
theorem unwrapPass_wrapPass (n : Nat) (w : Work) {p : Nat × Nat} (hp : p.2 < w.r.length) :
    unwrapPass bc.dec kek n (wrapPass bc.enc kek n w p) p = w := by
  obtain ⟨hdec, -⟩ := hbc kek hwf (cat w.a w.r[p.2])
  simp [unwrapPass, wrapPass, hp, hdec]

/-- The passes of `UNWRAPF` in the reverse order take back those of `WRAPF`. -/
theorem foldl_unwrapPass_foldl_wrapPass (n : Nat) {ps : List (Nat × Nat)} {w : Work}
    (hps : ∀ p ∈ ps, p.2 < w.r.length) :
    ps.reverse.foldl (unwrapPass bc.dec kek n) (ps.foldl (wrapPass bc.enc kek n) w) = w := by
  induction ps generalizing w with
  | nil => rfl
  | cons p ps ih =>
    obtain ⟨hp, hps⟩ := List.forall_mem_cons.mp hps
    have hlen : (wrapPass bc.enc kek n w p).r.length = w.r.length := List.length_set
    rw [List.foldl_cons, List.reverse_cons, List.foldl_append, ih (by rwa [hlen]), List.foldl_cons, List.foldl_nil,
      unwrapPass_wrapPass hbc hwf n w hp]

/-- `UNWRAPF` begins with the variables as the loops of `WRAPF` left them, and ends with those they began with. -/
theorem unwrapLoops_wrapF (key : List Byte) :
    unwrapLoops bc.dec kek (wrapF bc.enc kek key) = wrapInit (kek.klen / 8) key := by
  rw [unwrapLoops_eq_foldl, wrapF, unwrapInit_join (by rw [length_foldl_wrapPass, split_length]),
    unwrapPositions_eq_reverse]
  refine foldl_unwrapPass_foldl_wrapPass hbc hwf _ fun p hp => ?_
  rw [split_length]
  exact lt_of_mem_wrapPositions hp

end

/-- Settles O46: `A` is `IV` again and `R` the split of the key, whose join is the key. -/
theorem unwrapOfWrapIsTheKey : Obligations.UnwrapOfWrapIsTheKey := by
  intro bc hbc kek key hwf hlen
  obtain ⟨hklen, -⟩ := of_decide_eq_true hwf
  rw [unwrapF_eq_some_iff, unwrapLoops_wrapF hbc hwf]
  exact ⟨rfl, join_split (by omega)⟩

/-! ### The passes in order (43_unwrap.md rule R184) -/

theorem length_unwrapPositions (n : Nat) : (unwrapPositions n).length = 6 * n := by
  rw [unwrapPositions_eq_reverse, List.length_reverse, length_wrapPositions]

/-- One pass more, at the position whose counter comes next: after k passes 6n - k. -/
theorem unwrapPositions_take_succ {n j i k : Nat} (hi : i < n) (hctr : ctr n j i + k = 6 * n) :
    (unwrapPositions n).take (k + 1) = (unwrapPositions n).take k ++ [(j, i)] := by
  have hlen := length_wrapPositions n
  have hpos : 0 < ctr n j i := Nat.succ_pos _
  have hk : k < (unwrapPositions n).length := by
    rw [length_unwrapPositions]
    omega
  have hget : (unwrapPositions n)[k] = (j, i) := by
    simp only [unwrapPositions_eq_reverse, List.getElem_reverse]
    exact wrapPositions_getElem hi (by omega) _
  rw [← hget, List.take_append_getElem]

end Sys2Proof.Machine
end

section
/-! An unwrap call on the engine: after k of its turns the engine stands at pass k of `UNWRAPF` with the same `A` and
`R`: the proofs of O41, O48 and O49. -/

namespace Sys2Proof.Machine

/-! ### The engine's turns -/

theorem engineRegs_of_run_unwrap (bc : BlockCipher) {e : Regs} (hst : e.st = .run) (hdir : e.dir = .unwrap) :
    engineRegs bc e = e.unwrapRound bc := by
  simp only [engineRegs, hst, hdir]

theorem engineRegs_of_fin_unwrap (bc : BlockCipher) {e : Regs} (hst : e.st = .fin) (hdir : e.dir = .unwrap) :
    engineRegs bc e = e.unwrapFinish := by
  simp only [engineRegs, hst, hdir]

theorem engineRegs_of_idle (bc : BlockCipher) {e : Regs} (hst : e.st = .idle) : engineRegs bc e = e := by
  simp only [engineRegs, hst]

/-- The engine's turn keeps the invariant, for any cipher behind the port (10_state.md rule R48). -/
theorem Regs.Inv.engineRegs (bc : BlockCipher) {e : Regs} (h : e.Inv) : (engineRegs bc e).Inv := by
  cases hst : e.st with
  | idle => rwa [engineRegs_of_idle bc hst]
  | run =>
    cases hdir : e.dir with
    | wrap =>
      rw [engineRegs_of_run_wrap bc hst hdir]
      exact (h.of_run hst).wrapRound_inv hst hdir bc
    | unwrap =>
      rw [engineRegs_of_run_unwrap bc hst hdir]
      exact (h.of_run hst).unwrapRound_inv hst hdir bc
  | fin =>
    obtain ⟨hcall, -⟩ := h.of_fin hst
    cases hdir : e.dir with
    | wrap =>
      rw [engineRegs_of_fin_wrap bc hst hdir]
      exact hcall.wrapFinish_inv
    | unwrap =>
      rw [engineRegs_of_fin_unwrap bc hst hdir]
      exact hcall.unwrapFinish_inv
  | done => rwa [engineRegs_of_done bc hst]

theorem Regs.Inv.engineRun (bc : BlockCipher) (k : Nat) {e : Regs} (h : e.Inv) : (engineRun bc k e).Inv := by
  induction k with
  | zero => exact h
  | succ k ih =>
    rw [engineRun_succ]
    exact ih.engineRegs bc

/-! ### The position after k rounds -/

/-- An unwrap of n semiblocks after k round steps: in RUN at the position whose counter is 6n - k, or after all 6n of
them in FIN at (0, 0) (43_unwrap.md rule R184). -/
def Regs.AtUnwrapRound (n k : Nat) (e : Regs) : Prop :=
  e.n.toNat = n ∧ e.dir = .unwrap ∧
  ((e.st = .run ∧ e.j.toNat ≤ 5 ∧ e.i.toNat < n ∧ ctr n e.j.toNat e.i.toNat + k = 6 * n) ∨
    (e.st = .fin ∧ e.j = 0#3 ∧ e.i = 0#2 ∧ k = 6 * n))

/-- Before 6n round steps the engine is in RUN. -/
theorem Regs.AtUnwrapRound.run_of_lt {n k : Nat} {e : Regs} (h : e.AtUnwrapRound n k) (hk : k < 6 * n) :
    e.st = .run ∧ e.j.toNat ≤ 5 ∧ e.i.toNat < n ∧ ctr n e.j.toNat e.i.toNat + k = 6 * n := by
  obtain ⟨-, -, hrun | ⟨-, -, -, hlast⟩⟩ := h
  · exact hrun
  · exact absurd hlast hk.ne

/-- After 6n round steps the engine is in FIN: no position has counter 0. -/
theorem Regs.AtUnwrapRound.fin_of_eq {n : Nat} {e : Regs} (h : e.AtUnwrapRound n (6 * n)) :
    e.st = .fin ∧ e.j = 0#3 ∧ e.i = 0#2 := by
  obtain ⟨-, -, ⟨-, -, -, hctr⟩ | ⟨hst, hj, hi, -⟩⟩ := h
  · have hpos : 0 < ctr n e.j.toNat e.i.toNat := Nat.succ_pos _
    omega
  · exact ⟨hst, hj, hi⟩

/-- A round step goes to the position with the counter one lower, or after the last to FIN. -/
theorem Regs.AtUnwrapRound.unwrapRound (bc : BlockCipher) {n k : Nat} {e : Regs} (h : e.AtUnwrapRound n k)
    (hn : n ≤ 4) (hk : k < 6 * n) : (e.unwrapRound bc).AtUnwrapRound n (k + 1) := by
  obtain ⟨hst, hj, hi, hctr⟩ := h.run_of_lt hk
  obtain ⟨rfl, hdir, -⟩ := h
  obtain ⟨hn', hdir', -⟩ := e.unwrapRound_keep bc
  refine ⟨congrArg BitVec.toNat hn', hdir'.trans hdir, ?_⟩
  rw [ctr] at hctr
  obtain hwithin | hend : 0 < e.i.toNat ∨ e.i.toNat = 0 := by omega
  · obtain ⟨hj', hi', hst'⟩ := Regs.unwrapRound_within_round bc hwithin
    rw [hj', hst', ctr]
    exact .inl ⟨hst, hj, by omega, by omega⟩
  have hi0 : e.i = 0#2 := BitVec.eq_of_toNat_eq hend
  obtain hround | hlast : 0 < e.j.toNat ∨ e.j.toNat = 0 := by omega
  · obtain ⟨hj', hi', hst'⟩ := Regs.unwrapRound_round_end bc ⟨by omega, hn⟩ hi0 hround
    rw [← hj', Nat.mul_succ] at hctr
    rw [hst', ctr]
    exact .inl ⟨hst, by omega, by omega, by omega⟩
  · have hj0 : e.j = 0#3 := BitVec.eq_of_toNat_eq hlast
    obtain ⟨hj', hi', hst'⟩ := Regs.unwrapRound_last bc hi0 hj0
    rw [hlast, hend] at hctr
    exact .inr ⟨hst', hj'.trans hj0, hi'.trans hi0, by omega⟩

/-! ### `A` and `R` after k rounds -/

/-- Below `N` the variables hold what the register file reads. -/
theorem Regs.work_r_getD {e : Regs} {k : BitVec 2} (hk : k.toNat < e.n.toNat) :
    e.work.r.getD k.toNat 0#64 = e.readR k := by
  simp [Regs.work, Regs.readR, List.getD, hk, k.isLt]

/-- A round step is one pass of the loop body at the engine's position. -/
theorem Regs.work_unwrapRound (bc : BlockCipher) {e : Regs} (hi : e.i.toNat < e.n.toNat) :
    (e.unwrapRound bc).work = unwrapPass bc.dec e.kek e.n.toNat e.work (e.j.toNat, e.i.toNat) := by
  obtain ⟨hn, -⟩ := e.unwrapRound_keep bc
  simp only [unwrapPass, Regs.work_r_getD hi]
  rw [Regs.work, Regs.unwrapRound_a, Regs.unwrapRound_r, hn, Vector.toList_set, List.take_set]
  rfl

/-- An unwrap after k round steps from the variables w: the position, the KEK, and the variables after k passes. -/
structure Regs.AfterUnwrapRounds (bc : BlockCipher) (kek : Kek) (w : Work) (n k : Nat) (e : Regs) : Prop where
  at_round : e.AtUnwrapRound n k
  kek_eq : e.kek = kek
  work_eq : e.work = ((unwrapPositions n).take k).foldl (unwrapPass bc.dec kek n) w

/-- The engine's turn is the next round and the next pass. -/
theorem Regs.AfterUnwrapRounds.turn {bc : BlockCipher} {kek : Kek} {w : Work} {n k : Nat} {e : Regs}
    (h : e.AfterUnwrapRounds bc kek w n k) (hn : n ≤ 4) (hk : k < 6 * n) :
    (engineRegs bc e).AfterUnwrapRounds bc kek w n (k + 1) := by
  obtain ⟨hround, hkek, hwork⟩ := h
  obtain ⟨hst, -, hi, hctr⟩ := hround.run_of_lt hk
  have ⟨hneq, hdir, _⟩ := hround
  rw [engineRegs_of_run_unwrap bc hst hdir]
  refine ⟨hround.unwrapRound bc hn hk, ?kek, ?work⟩
  case kek =>
    obtain ⟨-, -, hklenr, hkekr, -⟩ := e.unwrapRound_keep bc
    rw [← hkek, Regs.kek, Regs.kek, hklenr, hkekr]
  case work =>
    rw [Regs.work_unwrapRound bc (hneq ▸ hi), unwrapPositions_take_succ hi hctr, List.foldl_append, ← hwork, hkek,
      hneq, List.foldl_cons, List.foldl_nil]

/-! ### From a valid START.U -/

section
variable (bc : BlockCipher) (e : Regs) (pay : Payload) {n : Nat} (hn : n = 2 ∨ n = 3 ∨ n = 4)

include hn

theorem Regs.startUnwrap_afterUnwrapRounds :
    (e.startUnwrap (8 * n) (8 * n + 8) pay).AfterUnwrapRounds bc (callKek pay (8 * n))
      (unwrapInit n (pay.din.toList.take (8 * n + 8))) n 0 := by
  have hdiv : 8 * n / 8 = n := Nat.mul_div_cancel_left n (by decide)
  have hmod : n % 2 ^ 3 = n := Nat.mod_eq_of_lt (by omega)
  have hlast : (BitVec.ofNat 2 (n - 1)).toNat = n - 1 := by rw [BitVec.toNat_ofNat]; omega
  rw [startUnwrap_of_klen (by omega), hdiv]
  have hfits : 8 * n < 256 := by omega
  refine ⟨⟨?n, rfl, .inl ⟨rfl, Nat.le_refl 5, ?i, ?counter⟩⟩, e.load_kek _ hfits _ _ _ _ _, ?work⟩
  case n => rw [Regs.load_n, hdiv, BitVec.toNat_ofNat, hmod]
  case i => rw [Regs.load_i, hlast]; omega
  case counter =>
    rw [Regs.load_i, hlast, Regs.load_j, show (5#3).toNat = 5 from rfl, ctr]
    omega
  case work =>
    have hlen : (split (pay.din.toList.take (8 * n + 8)) (n + 1)).tail.length = n := by
      rw [List.length_tail, split_length, Nat.add_sub_cancel]
    have htake := take_registerFile (l := (split (pay.din.toList.take (8 * n + 8)) (n + 1)).tail) (by omega)
    rw [hlen] at htake
    rw [Regs.work, Regs.load_n, hdiv, BitVec.toNat_ofNat, hmod, Regs.load_r, htake]
    rfl

theorem engineRun_afterUnwrapRounds {k : Nat} (hk : k ≤ 6 * n) :
    (engineRun bc k (e.startUnwrap (8 * n) (8 * n + 8) pay)).AfterUnwrapRounds bc (callKek pay (8 * n))
      (unwrapInit n (pay.din.toList.take (8 * n + 8))) n k := by
  induction k with
  | zero => exact e.startUnwrap_afterUnwrapRounds bc pay hn
  | succ k ih =>
    rw [engineRun_succ]
    exact (ih (Nat.le_of_succ_le hk)).turn (by omega) hk

/-- After all 6n rounds the engine holds the variables as the loops of `UNWRAPF` leave them. -/
theorem engineRun_work_eq_unwrapLoops :
    (engineRun bc (6 * n) (e.startUnwrap (8 * n) (8 * n + 8) pay)).work =
      unwrapLoops bc.dec (callKek pay (8 * n)) (pay.din.toList.take (8 * n + 8)) := by
  obtain ⟨-, -, hwork⟩ := engineRun_afterUnwrapRounds bc e pay hn (le_refl (6 * n))
  rw [List.take_of_length_le (length_unwrapPositions n).le] at hwork
  rw [hwork, unwrapLoops_eq_foldl]
  simp only [callKek, Nat.mul_div_cancel_left n (show 0 < 8 by decide)]

/-- UFIN comes after them. -/
theorem engineRun_startUnwrap :
    engineRun bc (6 * n + 1) (e.startUnwrap (8 * n) (8 * n + 8) pay) =
      (engineRun bc (6 * n) (e.startUnwrap (8 * n) (8 * n + 8) pay)).unwrapFinish := by
  obtain ⟨hround, -, -⟩ := engineRun_afterUnwrapRounds bc e pay hn (le_refl (6 * n))
  obtain ⟨hst, -⟩ := hround.fin_of_eq
  obtain ⟨-, hdir, -⟩ := hround
  rw [engineRun_succ, engineRegs_of_fin_unwrap bc hst hdir]

/-- Where `UNWRAPF` gives a key, UFIN delivers it. -/
theorem engineRun_startUnwrap_of_some {key : List Byte}
    (h : unwrapF bc.dec (callKek pay (8 * n)) (pay.din.toList.take (8 * n + 8)) = some key) :
    engineRun bc (6 * n + 1) (e.startUnwrap (8 * n) (8 * n + 8) pay) =
      { Regs.reset with
        st := .done, res := .ok, olen := BitVec.ofNat 8 (8 * n),
        dout := Vector.ofFn fun p => key.getD p.val 0#8 } := by
  have hlen : (unwrapLoops bc.dec (callKek pay (8 * n)) (pay.din.toList.take (8 * n + 8))).r.length = n :=
    (length_unwrapLoops_r _ _ _).trans (Nat.mul_div_cancel_left n (by decide))
  rw [unwrapF_eq_some_iff] at h
  rw [← engineRun_work_eq_unwrapLoops bc e pay hn] at h hlen
  obtain ⟨ha, rfl⟩ := h
  rw [engineRun_startUnwrap bc e pay hn, Regs.unwrapFinish_of_iv ha, deliver_closed, hlen]

/-- Where `UNWRAPF` gives none, UFIN raises AuthenticationFailure, and no output stands from before the call. -/
theorem engineRun_startUnwrap_of_none
    (h : unwrapF bc.dec (callKek pay (8 * n)) (pay.din.toList.take (8 * n + 8)) = none) :
    engineRun bc (6 * n + 1) (Regs.reset.startUnwrap (8 * n) (8 * n + 8) pay) =
      { Regs.reset with st := .done, res := .authFailure } := by
  rw [unwrapF_eq_none_iff, ← engineRun_work_eq_unwrapLoops bc Regs.reset pay hn] at h
  obtain ⟨hround, -, -⟩ := engineRun_afterUnwrapRounds bc Regs.reset pay hn (le_refl (6 * n))
  obtain ⟨hst, -⟩ := hround.fin_of_eq
  obtain ⟨hcall, -⟩ := ((Regs.startUnwrap_reset_inv (8 * n) (8 * n + 8) pay).engineRun bc (6 * n)).of_fin hst
  rw [engineRun_startUnwrap bc _ pay hn, hcall.unwrapFinish_of_ne_iv h]

end

/-- Settles O41: k rounds after the START, read off at k < 6n and at k = 6n. -/
theorem unwrapTakesSixNRoundSteps : Obligations.UnwrapTakesSixNRoundSteps := by
  intro bc e n k pay _ hn hk f hf
  subst hf
  obtain ⟨hround, -, -⟩ := engineRun_afterUnwrapRounds bc e pay hn hk
  have ⟨hn', hdir, _⟩ := hround
  refine ⟨hn', hdir, hround.run_of_lt, fun hlast => ?_⟩
  subst hlast
  exact hround.fin_of_eq

/-- Settles O48: UFIN on what the loops of `UNWRAPF` leave, by its two outcomes; in DONE the engine waits. -/
theorem unwrapCallComputesUnwrapf : Obligations.UnwrapCallComputesUnwrapf := by
  intro bc klen pay hklen kek f hkek hf
  obtain ⟨n, hn, rfl⟩ : ∃ n, (n = 2 ∨ n = 3 ∨ n = 4) ∧ klen = 8 * n := ⟨klen / 8, by omega, by omega⟩
  rw [Nat.mul_div_cancel_left n (by decide)] at hf
  subst hkek hf
  refine ⟨fun key => engineRun_startUnwrap_of_some bc _ pay hn, engineRun_startUnwrap_of_none bc pay hn, ?waits⟩
  case waits =>
    rw [engineRun_startUnwrap bc _ pay hn]
    exact engineRegs_of_done bc (Regs.unwrapFinish_st _)

/-! ### Wrap, ACK, unwrap -/

/-- Up to its length a zero-filled buffer is the list it was made from. -/
theorem take_ofFn_getD {l : List Byte} {m : Nat} (h : l.length ≤ m) :
    (Vector.ofFn fun p : Fin m => l.getD p.val 0#8).toList.take l.length = l := by
  refine List.ext_getElem (by simp [h]) fun k _ hk => ?_
  simp [hk]

/-- The KEK of a valid call is one that 00_scope.md rule R17 admits. -/
theorem callKek_wf (pay : Payload) {klen : Nat} (hklen : klen = 16 ∨ klen = 24 ∨ klen = 32) :
    (callKek pay klen).wf = true := by
  have hlen : (pay.kekbuf.toList.take klen).length = klen := by
    rw [List.length_take, Vector.length_toList]
    omega
  exact decide_eq_true ⟨hklen, hlen⟩

/-- Byte p of a prefix: the byte of the buffer below its length, the default above. -/
theorem take_toList_getD_eq_ite {n : Nat} (v : Vector Byte n) (m : Nat) (p : Fin n) :
    (v.toList.take m).getD p.val 0#8 = if p.val < m then v[p] else 0#8 := by
  split
  · simp [List.getD, ‹p.val < m›]
  · exact List.getD_eq_default _ _ (by rw [List.length_take]; omega)

/-- Settles O49: the release leaves the reset registers, and `DIN` of the second call holds what `WRAPF` gave. -/
theorem engineUnwrapsWhatItWrapped : Obligations.EngineUnwrapsWhatItWrapped := by
  intro bc hbc klen pay hklen f g hf hg
  have hkey : (pay.din.toList.take klen).length = klen := by
    rw [List.length_take, Vector.length_toList]
    omega
  have hwf := callKek_wf pay hklen
  have hwrapped : (wrapF bc.enc (callKek pay klen) (pay.din.toList.take klen)).length = klen + 8 :=
    wrapAddsEightBytes _ _ _ hklen hkey
  obtain ⟨hwrap, -⟩ := wrapCallComputesWrapf bc klen pay hklen _ _ f rfl rfl hf
  have hdin : f.dout.toList.take (klen + 8) = wrapF bc.enc (callKek pay klen) (pay.din.toList.take klen) := by
    rw [hwrap, ← hwrapped]
    exact take_ofFn_getD (by omega)
  have hrelease : f.release = Regs.reset := by rw [hwrap]; rfl
  rw [hrelease] at hg
  have hunwrap : unwrapF bc.dec (callKek pay klen) (f.dout.toList.take (klen + 8)) =
      some (pay.din.toList.take klen) := by
    rw [hdin]
    exact unwrapOfWrapIsTheKey bc hbc _ _ hwf hkey
  obtain ⟨hok, -, -⟩ := unwrapCallComputesUnwrapf bc klen _ hklen _ g rfl hg
  rw [hok _ hunwrap]
  refine ⟨rfl, rfl, rfl, fun p => ?_⟩
  calc (Vector.ofFn fun q : Fin 40 => (pay.din.toList.take klen).getD q.val 0#8)[p]
      = (pay.din.toList.take klen).getD p.val 0#8 := Vector.getElem_ofFn p.isLt
    _ = if p.val < klen then pay.din[p] else 0#8 := take_toList_getD_eq_ite _ _ _

end Sys2Proof.Machine
end

section
/-! Commands where their level is 0 and ACK in DONE (44_host.md rules R201, R202 and R206): the proofs of O17, O22 and
O23. -/

namespace Sys2Proof.Machine

theorem exec_startW_not_ready {s : State} (h : s.regs.st ≠ .idle) (klen dlen : Nat) (pay : Payload) :
    exec (.startW klen dlen pay) s = .next s :=
  if_neg (by simpa [Regs.cmdReady] using h)

theorem exec_startU_not_ready {s : State} (h : s.regs.st ≠ .idle) (klen dlen : Nat) (pay : Payload) :
    exec (.startU klen dlen pay) s = .next s :=
  if_neg (by simpa [Regs.cmdReady] using h)

theorem exec_ack_not_done {s : State} (h : s.regs.st ≠ .done) (ignored : BitVec 17) :
    exec (.ack ignored) s = .next s :=
  if_neg (by simpa [Regs.doneLevel] using h)

/-- Settles O17: each command is guarded by its level. -/
theorem commandsNotReadyChangeNothing : Obligations.CommandsNotReadyChangeNothing := fun _ =>
  ⟨fun h klen dlen pay => ⟨exec_startW_not_ready h klen dlen pay, exec_startU_not_ready h klen dlen pay⟩,
    fun h ignored => exec_ack_not_done h ignored⟩

/-- Settles O22: where `done` is up, ACK is the release. -/
theorem ackReleasesTheEngine : Obligations.AckReleasesTheEngine := fun s ignored hst => exec_ack_done s ignored hst

/-- In DONE the working registers are clear already, so the release leaves the reset registers. -/
theorem Regs.Inv.release_eq {e : Regs} (h : e.Inv) (hst : e.st = .done) : e.release = Regs.reset := by
  obtain ⟨hclear, -⟩ := h.of_done hst
  exact hclear.release_eq

/-- Settles O23: ACK is the release, and a state of the invariant has nothing else to reset. -/
theorem ackRestoresTheResetState : Obligations.AckRestoresTheResetState := by
  intro s ignored hinv hst
  rw [exec_ack_done s ignored hst, hinv.release_eq hst]
  rfl

end Sys2Proof.Machine
end

section
/-! The driver's steps, phase by phase (44_host.md rule R208): the proof of O53. -/

namespace Sys2Proof.Machine

/-! ### Issuing a command (30_encoding.md rule R107) -/

theorem issue_start {c : ApiCall} (h : c.tooLong = false) (s : State) : issue s c.start = exec c.start s := by
  refine issue_of_ok s c.start ?_ (decode_encode _ (c.start_wf h))
  rcases c with ⟨_ | _, _, _, _⟩ <;> exact nofun

theorem issue_read (s : State) : issue s .read = exec .read s := issue_of_ok s .read nofun (decode_encode .read rfl)

theorem issue_ack (s : State) (ignored : BitVec 17) : issue s (.ack ignored) = exec (.ack ignored) s :=
  issue_of_ok s (.ack ignored) nofun (decode_encode (.ack ignored) rfl)

/-- The sample a READ appends is the last one. -/
theorem State.lastRead_logRead (s : State) (x : Readout) : (s.logRead x).lastRead = x :=
  List.getLastD_concat

theorem ApiCall.tooLong_eq_false_iff (c : ApiCall) : c.tooLong = false ↔ c.kek.length ≤ 255 ∧ c.data.length ≤ 255 := by
  rw [← Bool.not_eq_true, c.tooLong_iff, not_or, Nat.not_lt, Nat.not_lt]

/-! ### Each phase by its level -/

section
variable {c : ApiCall} {s t : State}

theorem driverStep_entry_of_tooLong (h : c.tooLong = true) :
    driverStep c ⟨s, .entry⟩ = .next ⟨s, .returned (some (.error .invalidLength))⟩ := if_pos h

theorem driverStep_entry_of_fits (h : c.tooLong = false) : driverStep c ⟨s, .entry⟩ = .next ⟨s, .waitReady⟩ :=
  if_neg (by simp [h])

theorem driverStep_waitReady_of_idle (hfits : c.tooLong = false) (hst : s.regs.st = .idle)
    (h : exec c.start s = .next t) : driverStep c ⟨s, .waitReady⟩ = .next ⟨t, .waitDone⟩ := by
  simp [driverStep, Regs.cmdReady, hst, issue_start hfits, h, Session.andThen]

theorem driverStep_waitReady_of_not_idle (hst : s.regs.st ≠ .idle) (h : step s = .next t) :
    driverStep c ⟨s, .waitReady⟩ = .next ⟨t, .waitReady⟩ := by
  simp [driverStep, Regs.cmdReady, hst, h, Session.andThen]

theorem driverStep_waitDone_of_not_done (hst : s.regs.st ≠ .done) (h : step s = .next t) :
    driverStep c ⟨s, .waitDone⟩ = .next ⟨t, .waitDone⟩ := by
  simp [driverStep, Regs.doneLevel, hst, h, Session.andThen]

theorem driverStep_waitDone_of_done (hst : s.regs.st = .done) :
    driverStep c ⟨s, .waitDone⟩ = .next ⟨s.logRead s.regs.readout, .acknowledge s.regs.readout⟩ := by
  simp [driverStep, Regs.doneLevel, hst, issue_read, exec_read, Session.andThen, State.lastRead_logRead]

theorem driverStep_acknowledge (x : Readout) (h : exec (.ack 0#17) s = .next t) :
    driverStep c ⟨s, .acknowledge x⟩ = .next ⟨t, .returned x.result⟩ := by
  simp [driverStep, issue_ack, h, Session.andThen]

end

/-- Settles O53: each phase by its level; no instruction and no turn stops the machine. -/
theorem driverFollowsTheMacro : Obligations.DriverFollowsTheMacro := by
  intro c s
  obtain ⟨start, hstart⟩ := exec_total c.start s
  obtain ⟨turn, hturn⟩ := everyStepAnswersANextState s
  obtain ⟨acked, hack⟩ := exec_total (.ack 0#17) s
  refine ⟨fun hlong => driverStep_entry_of_tooLong (c.tooLong_iff.mpr hlong), fun hkek hdata => ?fits,
    fun hst => ⟨turn, hturn, driverStep_waitReady_of_not_idle hst hturn⟩,
    fun hst => ⟨turn, hturn, driverStep_waitDone_of_not_done hst hturn⟩,
    fun hst => driverStep_waitDone_of_done hst,
    fun x => ⟨acked, hack, driverStep_acknowledge x hack⟩⟩
  case fits =>
    have hfits := c.tooLong_eq_false_iff.mpr ⟨hkek, hdata⟩
    exact ⟨driverStep_entry_of_fits hfits, fun hst => ⟨start, hstart, driverStep_waitReady_of_idle hfits hst hstart⟩⟩

end Sys2Proof.Machine
end

section
/-! A run of the engine's turns on the machine, with the requests it puts on the cipher port. -/

namespace Sys2Proof.Machine

/-! ### Runs in parts -/

theorem core_run_add (M : Host.Core) {j k : Nat} {s t : M.State} (h : M.run j s = .next t) :
    M.run (j + k) s = M.run k t := by
  induction j generalizing s with
  | zero => cases h; rw [Nat.zero_add]
  | succ j ih =>
    rw [Nat.add_right_comm, Host.Core.run]
    cases hstep : M.step s with
    | next s' =>
      rw [core_run_step M j s s' hstep] at h
      exact ih h
    | fault r => simp [Host.Core.run, hstep] at h
    | refused r => simp [Host.Core.run, hstep] at h

theorem machine_run_step {s t : State} (h : step s = .next t) (k : Nat) :
    Sys2Proof.core.run (k + 1) s = Sys2Proof.core.run k t := core_run_step Sys2Proof.core k s t h

/-! ### The requests of the engine's turns (41_blockcipher_port.md rule R147) -/

/-- The requests of one turn of the engine: one in a round step, none otherwise. -/
def Regs.turnRequests (e : Regs) : List PortRequest :=
  match e.st, e.dir with
  | .run, .wrap => [e.wrapRequest]
  | .run, .unwrap => [e.unwrapRequest]
  | _, _ => []

/-- The requests of k turns of the engine, oldest first. -/
def engineRequests (bc : BlockCipher) : Nat → Regs → List PortRequest
  | 0, _ => []
  | k + 1, e => e.turnRequests ++ engineRequests bc k (engineRegs bc e)

/-- The operation of a direction's requests (41_blockcipher_port.md rules R141 and R142). -/
def Dir.op : Dir → PortOp
  | .wrap => .enc
  | .unwrap => .dec

theorem Regs.turnRequests_of_not_run {e : Regs} (hst : e.st ≠ .run) : e.turnRequests = [] := by
  rw [Regs.turnRequests]
  split
  · exact absurd ‹_› hst
  · exact absurd ‹_› hst
  · rfl

theorem Regs.turnRequests_of_run_wrap {e : Regs} (hst : e.st = .run) (hdir : e.dir = .wrap) :
    e.turnRequests = [e.wrapRequest] := by
  simp only [Regs.turnRequests, hst, hdir]

theorem Regs.turnRequests_of_run_unwrap {e : Regs} (hst : e.st = .run) (hdir : e.dir = .unwrap) :
    e.turnRequests = [e.unwrapRequest] := by
  simp only [Regs.turnRequests, hst, hdir]

/-- A round step makes one request, with the latched KEK and the operation of the direction. -/
theorem Regs.turnRequests_of_run {e : Regs} (hst : e.st = .run) :
    ∃ q, e.turnRequests = [q] ∧ q.kek = e.kek ∧ q.op = e.dir.op := by
  cases hdir : e.dir with
  | wrap => exact ⟨_, Regs.turnRequests_of_run_wrap hst hdir, rfl, rfl⟩
  | unwrap => exact ⟨_, Regs.turnRequests_of_run_unwrap hst hdir, rfl, rfl⟩

/-- The requests of the last of k + 1 turns. -/
theorem engineRequests_succ (bc : BlockCipher) (k : Nat) (e : Regs) :
    engineRequests bc (k + 1) e = engineRequests bc k e ++ (engineRun bc k e).turnRequests := by
  induction k generalizing e with
  | zero => simp [engineRequests, engineRun]
  | succ k ih =>
    rw [engineRequests, ih, ← List.append_assoc]
    rfl

theorem engineRegs_keepsCall (bc : BlockCipher) {e : Regs} (hst : e.st = .run) : e.KeepsCall (engineRegs bc e) := by
  cases hdir : e.dir with
  | wrap =>
    rw [engineRegs_of_run_wrap bc hst hdir]
    exact Regs.keepsCall_advance hst _ _ _
  | unwrap =>
    rw [engineRegs_of_run_unwrap bc hst hdir]
    exact Regs.keepsCall_advance hst _ _ _

/-- As long as the call runs, each turn makes one request, with the KEK and the direction of the call. -/
theorem engineRequests_of_run (bc : BlockCipher) {k : Nat} {e : Regs}
    (hrun : ∀ j, j < k → (engineRun bc j e).st = .run) :
    (engineRequests bc k e).length = k ∧ ∀ q ∈ engineRequests bc k e, q.kek = e.kek ∧ q.op = e.dir.op := by
  induction k generalizing e with
  | zero => exact ⟨rfl, nofun⟩
  | succ k ih =>
    have hst : e.st = .run := hrun 0 (Nat.succ_pos k)
    obtain ⟨q, hq, hkek, hop⟩ := Regs.turnRequests_of_run hst
    have hkeeps := engineRegs_keepsCall bc hst
    have ⟨_, _, hdir, _⟩ := hkeeps
    obtain ⟨hlen, hall⟩ := ih fun j hj => hrun (j + 1) (Nat.succ_lt_succ hj)
    rw [hkeeps.kek_eq, hdir] at hall
    rw [engineRequests, hq]
    exact ⟨congrArg (· + 1) hlen, List.forall_mem_cons.mpr ⟨⟨hkek, hop⟩, hall⟩⟩

/-! ### The engine's turns on the machine -/

/-- The machine after k turns of the engine. -/
def State.afterTurns (k : Nat) (s : State) : State :=
  { regs := engineRun Config.blockCipher k s.regs, inputs := s.inputs.drop k,
    requests := s.requests ++ engineRequests Config.blockCipher k s.regs, reads := s.reads }

theorem State.afterTurns_one (s : State) :
    s.afterTurns 1 =
      { regs := engineRegs Config.blockCipher s.regs, inputs := s.inputs.tail,
        requests := s.requests ++ s.regs.turnRequests, reads := s.reads } := by
  rw [State.afterTurns, List.drop_one, engineRequests, engineRequests, List.append_nil]
  rfl

/-- One more turn, taken first. -/
theorem State.afterTurns_succ (k : Nat) (s : State) : s.afterTurns (k + 1) = (s.afterTurns 1).afterTurns k := by
  simp only [State.afterTurns, engineRun, engineRequests, List.drop_drop, List.append_nil, List.append_assoc,
    Nat.add_comm 1 k]

/-- Whatever `SEL` selects, and also where it selects nothing, the step is one turn of the engine. -/
theorem step_of_engineTurn {s : State} (hsel : nextStimulus s = .selector s.regs.sel) :
    step s = .next (s.afterTurns 1) := by
  rw [State.afterTurns_one]
  cases hst : s.regs.st with
  | idle =>
    rw [step_of_waiting hsel (.inl hst), engineRegs_of_idle _ hst, Regs.turnRequests_of_not_run (by simp [hst]),
      List.append_nil]
    rfl
  | run =>
    have hdec := decode_sel_run s.regs hst
    cases hdir : s.regs.dir <;> rw [hdir, ← hsel] at hdec
    · rw [step_of_ok s .wstep hdec, exec_wstep_enabled (takeTurn s) hst hdir, engineRegs_of_run_wrap _ hst hdir,
        Regs.turnRequests_of_run_wrap hst hdir]
      rfl
    · rw [step_of_ok s .ustep hdec, exec_ustep_enabled (takeTurn s) hst hdir, engineRegs_of_run_unwrap _ hst hdir,
        Regs.turnRequests_of_run_unwrap hst hdir]
      rfl
  | fin =>
    have hdec := decode_sel_fin s.regs hst
    rw [Regs.turnRequests_of_not_run (by simp [hst]), List.append_nil]
    cases hdir : s.regs.dir <;> rw [hdir, ← hsel] at hdec
    · rw [step_of_ok s .wfin hdec, exec_wfin_enabled (takeTurn s) hst hdir, engineRegs_of_fin_wrap _ hst hdir]
      rfl
    · rw [step_of_ok s .ufin hdec, exec_ufin_enabled (takeTurn s) hst hdir, engineRegs_of_fin_unwrap _ hst hdir]
      rfl
  | done =>
    rw [step_of_waiting hsel (.inr hst), engineRegs_of_done _ hst, Regs.turnRequests_of_not_run (by simp [hst]),
      List.append_nil]
    rfl

/-- With the engine's turn first among the turns to come, and with none to come, it is the engine's turn. -/
theorem nextStimulus_of_take_one {s : State} (h : ∀ x ∈ s.inputs.take 1, x = .engineTurn) :
    nextStimulus s = .selector s.regs.sel := by
  cases hs : s.inputs with
  | nil => exact nextStimulus_of_nil hs
  | cons x rest =>
    obtain rfl : x = .engineTurn := h x (by simp [hs])
    exact nextStimulus_of_engineTurn hs

/-- Where the next k turns are the engine's, the machine runs as the engine alone does. -/
theorem run_of_engineTurns {k : Nat} {s : State} (h : ∀ x ∈ s.inputs.take k, x = .engineTurn) :
    Sys2Proof.core.run k s = .next (s.afterTurns k) := by
  induction k generalizing s with
  | zero => simp only [Host.Core.run, State.afterTurns, engineRun, engineRequests, List.drop_zero, List.append_nil]
  | succ k ih =>
    have hfirst : ∀ x ∈ s.inputs.take 1, x = .engineTurn := fun x hx =>
      h x (List.take_subset_take_left _ (Nat.succ_le_succ k.zero_le) hx)
    have hrest : ∀ x ∈ (s.afterTurns 1).inputs.take k, x = .engineTurn := fun x hx =>
      h x (by rw [Nat.add_comm, List.take_add]; exact List.mem_append_right _ hx)
    rw [State.afterTurns_succ]
    exact (machine_run_step (step_of_engineTurn (nextStimulus_of_take_one hfirst)) k).trans (ih hrest)

end Sys2Proof.Machine
end

section
/-! A call as the engine takes it, from its START to the sample: what it leaves, what the sample says and what the
cipher port has seen. -/

namespace Sys2Proof.Machine

/-! ### The START of either direction -/

/-- What a valid START latches of the KEK, and the direction. -/
theorem Regs.start_of_valid (e : Regs) {dir : Dir} {klen dlen : Nat} (pay : Payload)
    (hv : valid dir klen dlen = true) :
    (e.start dir klen dlen pay).kek = callKek pay klen ∧ (e.start dir klen dlen pay).dir = dir := by
  obtain ⟨hklen, -⟩ := valid_lengths_le hv
  have hfits : klen < 256 := by omega
  cases dir with
  | wrap =>
    rw [Regs.start, startWrap_valid _ _ _ _ hv]
    exact ⟨e.load_kek _ hfits _ _ _ _ _, rfl⟩
  | unwrap =>
    rw [Regs.start, startUnwrap_valid _ _ _ _ hv]
    exact ⟨e.load_kek _ hfits _ _ _ _ _, rfl⟩

theorem Regs.start_of_invalid (e : Regs) {dir : Dir} {klen dlen : Nat} (pay : Payload)
    (hv : valid dir klen dlen = false) : e.start dir klen dlen pay = e.raise .invalidLength := by
  cases dir with
  | wrap => exact startWrap_invalid _ _ _ _ hv
  | unwrap => exact startUnwrap_invalid _ _ _ _ hv

theorem Regs.start_reset_inv (dir : Dir) (klen dlen : Nat) (pay : Payload) :
    (Regs.reset.start dir klen dlen pay).Inv := by
  cases dir with
  | wrap => exact Regs.startWrap_reset_inv klen dlen pay
  | unwrap => exact Regs.startUnwrap_reset_inv klen dlen pay

/-- A valid call runs for 6n turns and is then in FIN, in either direction (42_wrap.md rule R164, 43_unwrap.md rule
R184). -/
theorem engineRun_start_st (bc : BlockCipher) {dir : Dir} {klen dlen : Nat} (pay : Payload)
    (hv : valid dir klen dlen = true) :
    (∀ k, k < 6 * (klen / 8) → (engineRun bc k (Regs.reset.start dir klen dlen pay)).st = .run) ∧
      (engineRun bc (6 * (klen / 8)) (Regs.reset.start dir klen dlen pay)).st = .fin := by
  obtain ⟨hklen, rfl⟩ := (valid_eq_true_iff _ _ _).mp hv
  obtain ⟨n, hn, rfl⟩ : ∃ n, (n = 2 ∨ n = 3 ∨ n = 4) ∧ klen = 8 * n := ⟨klen / 8, by omega, by omega⟩
  rw [Nat.mul_div_cancel_left n (by decide)]
  cases dir with
  | wrap =>
    have hround {k : Nat} (hk : k ≤ 6 * n) := (engineRun_afterWrapRounds bc Regs.reset pay hn hk).at_round
    exact ⟨fun k hk => ((hround hk.le).run_of_lt hk).1, (hround le_rfl).fin_of_eq.1⟩
  | unwrap =>
    have hround {k : Nat} (hk : k ≤ 6 * n) := (engineRun_afterUnwrapRounds bc Regs.reset pay hn hk).at_round
    exact ⟨fun k hk => ((hround hk.le).run_of_lt hk).1, (hround le_rfl).fin_of_eq.1⟩

/-! ### The turns of a call -/

theorem callTurns_of_valid {dir : Dir} {klen dlen : Nat} (hv : valid dir klen dlen = true) :
    callTurns dir klen dlen = 6 * (klen / 8) + 1 := if_pos hv

theorem callTurns_of_invalid {dir : Dir} {klen dlen : Nat} (hv : valid dir klen dlen = false) :
    callTurns dir klen dlen = 0 := by simp [callTurns, hv]

theorem engineRegs_st_of_fin (bc : BlockCipher) {e : Regs} (hst : e.st = .fin) : (engineRegs bc e).st = .done := by
  cases hdir : e.dir with
  | wrap => rw [engineRegs_of_fin_wrap bc hst hdir]; rfl
  | unwrap => rw [engineRegs_of_fin_unwrap bc hst hdir]; exact Regs.unwrapFinish_st e

section
variable (bc : BlockCipher) (dir : Dir) (klen dlen : Nat) (pay : Payload)

/-- The call is in DONE after its turns. -/
theorem engineRun_callTurns_st :
    (engineRun bc (callTurns dir klen dlen) (Regs.reset.start dir klen dlen pay)).st = .done := by
  cases hv : valid dir klen dlen with
  | false =>
    rw [callTurns_of_invalid hv, Regs.start_of_invalid _ pay hv]
    rfl
  | true =>
    obtain ⟨-, hfin⟩ := engineRun_start_st bc pay hv
    rw [callTurns_of_valid hv, engineRun_succ]
    exact engineRegs_st_of_fin bc hfin

/-- The call is not in DONE before. -/
theorem engineRun_st_ne_done {k : Nat} (hk : k < callTurns dir klen dlen) :
    (engineRun bc k (Regs.reset.start dir klen dlen pay)).st ≠ .done := by
  cases hv : valid dir klen dlen with
  | false =>
    rw [callTurns_of_invalid hv] at hk
    exact absurd hk k.not_lt_zero
  | true =>
    rw [callTurns_of_valid hv] at hk
    obtain ⟨hrun, hfin⟩ := engineRun_start_st bc pay hv
    obtain hlt | rfl := Nat.lt_succ_iff_lt_or_eq.mp hk
    · simp [hrun k hlt]
    · simp [hfin]

/-- Releasing the result leaves the engine as it was before the START (44_host.md rule R206). -/
theorem engineRun_callTurns_release :
    (engineRun bc (callTurns dir klen dlen) (Regs.reset.start dir klen dlen pay)).release = Regs.reset :=
  ((Regs.start_reset_inv dir klen dlen pay).engineRun bc _).release_eq (engineRun_callTurns_st bc dir klen dlen pay)

/-- The port has seen 6n requests with the KEK and the direction of the call, none for an invalid call
(41_blockcipher_port.md rule R147). -/
theorem engineRequests_callTurns :
    (engineRequests bc (callTurns dir klen dlen) (Regs.reset.start dir klen dlen pay)).length =
        (if valid dir klen dlen then 6 * (klen / 8) else 0) ∧
      ∀ q ∈ engineRequests bc (callTurns dir klen dlen) (Regs.reset.start dir klen dlen pay),
        q.kek = callKek pay klen ∧ q.op = dir.op := by
  cases hv : valid dir klen dlen with
  | false =>
    rw [callTurns_of_invalid hv]
    exact ⟨rfl, nofun⟩
  | true =>
    obtain ⟨hrun, hfin⟩ := engineRun_start_st bc pay hv
    obtain ⟨hkek, hdir⟩ := Regs.reset.start_of_valid pay hv
    obtain ⟨hlen, hall⟩ := engineRequests_of_run bc hrun
    rw [hkek, hdir] at hall
    rw [callTurns_of_valid hv, engineRequests_succ, Regs.turnRequests_of_not_run (by simp [hfin]), List.append_nil]
    exact ⟨hlen, hall⟩

end

/-! ### What the sample says (44_host.md rule R208) -/

theorem Res.ofBits_bits (r : Res) : Res.ofBits r.bits = r := by cases r <;> rfl

theorem Regs.readout_result_of_ok {e : Regs} (h : e.res = .ok) :
    e.readout.result = some (.ok (e.dout.toList.take e.olen.toNat)) := by
  obtain ⟨-, hres, holen⟩ := e.status_fields
  simp only [Readout.result, Regs.readout, hres, holen, h, Res.ofBits_bits]

theorem Regs.readout_result_of_invalidLength {e : Regs} (h : e.res = .invalidLength) :
    e.readout.result = some (.error .invalidLength) := by
  obtain ⟨-, hres, -⟩ := e.status_fields
  simp only [Readout.result, Regs.readout, hres, h, Res.ofBits_bits]

theorem Regs.readout_result_of_authFailure {e : Regs} (h : e.res = .authFailure) :
    e.readout.result = some (.error .authenticationFailure) := by
  obtain ⟨-, hres, -⟩ := e.status_fields
  simp only [Readout.result, Regs.readout, hres, h, Res.ofBits_bits]

/-- The host gets back the bytes that were delivered. -/
theorem Regs.readout_result_of_bytes {e : Regs} {bytes : List Byte} (hres : e.res = .ok) (hlen : bytes.length ≤ 40)
    (holen : e.olen = BitVec.ofNat 8 bytes.length) (hdout : e.dout = Vector.ofFn fun p => bytes.getD p.val 0#8) :
    e.readout.result = some (.ok bytes) := by
  rw [Regs.readout_result_of_ok hres, hdout, holen, BitVec.toNat_ofNat, Nat.mod_eq_of_lt (by omega),
    take_ofFn_getD hlen]

/-! ### The payload of a call -/

/-- A buffer of at least the size of a list begins with the list. -/
theorem take_ofFn_getD_default {n : Nat} {l : List Byte} (h : l.length ≤ n) (d : Fin n → Byte) :
    (Vector.ofFn fun k : Fin n => l.getD k.val (d k)).toList.take l.length = l := by
  have hsame : ∀ k : Fin n, k.val < l.length →
      (Vector.ofFn fun k : Fin n => l.getD k.val (d k))[k] = (Vector.ofFn fun k : Fin n => l.getD k.val 0#8)[k] :=
    fun k hk => by simp [hk]
  rw [take_toList_congr hsame, take_ofFn_getD h]

/-- Where the lengths are valid, the KEK latched is the caller's and `DIN` holds the caller's data, whatever stands
beyond them (20_memory.md rule R70). -/
theorem payloadOf_of_valid {dir : Dir} {data kek : List Byte} (rest : Payload)
    (hv : valid dir kek.length data.length = true) :
    callKek (payloadOf rest data kek) kek.length = { klen := kek.length, kb := kek } ∧
      (payloadOf rest data kek).din.toList.take data.length = data := by
  obtain ⟨hkek, hdata⟩ := valid_lengths_le hv
  exact ⟨congrArg (Kek.mk kek.length) (take_ofFn_getD_default hkek _), take_ofFn_getD_default hdata _⟩

/-! ### DOC's functions -/

/-- The key has as many bytes as the KEK has. -/
theorem unwrapF_length {dec : Kek → Block → Block} {kek : Kek} {w key : List Byte}
    (h : unwrapF dec kek w = some key) : key.length = 8 * (kek.klen / 8) := by
  obtain ⟨-, rfl⟩ := unwrapF_eq_some_iff.mp h
  rw [join_length, length_unwrapLoops_r]

section
variable {bc : BlockCipher} {data kek : List Byte}

theorem docCall_wrap_of_valid (hv : valid .wrap kek.length data.length = true) :
    docCall bc .wrap data kek = .ok (wrapF bc.enc { klen := kek.length, kb := kek } data) := if_pos hv

theorem docCall_unwrap_of_some (hv : valid .unwrap kek.length data.length = true) {key : List Byte}
    (h : unwrapF bc.dec { klen := kek.length, kb := kek } data = some key) :
    docCall bc .unwrap data kek = .ok key := by
  simp [docCall, docUnwrap, hv, h]

theorem docCall_unwrap_of_none (hv : valid .unwrap kek.length data.length = true)
    (h : unwrapF bc.dec { klen := kek.length, kb := kek } data = none) :
    docCall bc .unwrap data kek = .error .authenticationFailure := by
  simp [docCall, docUnwrap, hv, h]

end

/-! ### An API call on an engine that is ready -/

/-- How many of the engine's turns the call takes. -/
def ApiCall.turns (c : ApiCall) : Nat := callTurns c.dir c.kek.length c.data.length

/-- The registers after the START of the call. -/
def ApiCall.startRegs (c : ApiCall) : Regs :=
  Regs.reset.start c.dir c.kek.length c.data.length (payloadOf c.rest c.data c.kek)

/-- The registers after the turns of the call. -/
def ApiCall.doneRegs (bc : BlockCipher) (c : ApiCall) : Regs := engineRun bc c.turns c.startRegs

/-- The requests of the call. -/
def ApiCall.requests (bc : BlockCipher) (c : ApiCall) : List PortRequest := engineRequests bc c.turns c.startRegs

theorem ApiCall.doneRegs_st (bc : BlockCipher) (c : ApiCall) : (c.doneRegs bc).st = .done :=
  engineRun_callTurns_st bc _ _ _ _

theorem ApiCall.doneRegs_release (bc : BlockCipher) (c : ApiCall) : (c.doneRegs bc).release = Regs.reset :=
  engineRun_callTurns_release bc _ _ _ _

/-- 6n requests of the call's direction with the caller's KEK, none for an invalid call (41_blockcipher_port.md rule
R147). -/
theorem ApiCall.requests_spec (bc : BlockCipher) (c : ApiCall) :
    (c.requests bc).length = (if valid c.dir c.kek.length c.data.length then 6 * (c.kek.length / 8) else 0) ∧
      ∀ q ∈ c.requests bc, q.kek = { klen := c.kek.length, kb := c.kek } ∧ q.op = c.dir.op := by
  obtain ⟨hlen, hall⟩ := engineRequests_callTurns bc c.dir c.kek.length c.data.length (payloadOf c.rest c.data c.kek)
  refine ⟨hlen, ?_⟩
  cases hv : valid c.dir c.kek.length c.data.length with
  | false =>
    have hnil : c.requests bc = [] := List.eq_nil_of_length_eq_zero (hlen.trans (if_neg (by simp [hv])))
    exact hnil ▸ nofun
  | true =>
    obtain ⟨hkek, -⟩ := payloadOf_of_valid c.rest hv
    exact hkek ▸ hall

/-- A wrap call delivers DOC's wrapped buffer. -/
theorem doneRegs_result_of_wrap (bc : BlockCipher) {data kek : List Byte} (rest : Payload)
    (hv : valid .wrap kek.length data.length = true) :
    (ApiCall.doneRegs bc ⟨.wrap, data, kek, rest⟩).readout.result = some (docCall bc .wrap data kek) := by
  obtain ⟨hklen, hdlen⟩ := (valid_eq_true_iff _ _ _).mp hv
  obtain ⟨hkek, hdin⟩ := payloadOf_of_valid rest hv
  have hlen : data.length = kek.length := hdlen
  have hbytes : (wrapF bc.enc ⟨kek.length, kek⟩ data).length = kek.length + 8 :=
    wrapAddsEightBytes bc.enc ⟨kek.length, kek⟩ data hklen hlen
  obtain ⟨hdone, -⟩ := wrapCallComputesWrapf bc kek.length (payloadOf rest data kek) hklen _ _ _ rfl rfl rfl
  rw [← callKek, hkek, ← hlen, hdin, hlen] at hdone
  rw [ApiCall.doneRegs, ApiCall.turns, callTurns_of_valid hv, docCall_wrap_of_valid hv]
  simp only [ApiCall.startRegs, Regs.start, hlen, hdone]
  exact Regs.readout_result_of_bytes rfl (by omega) (by rw [hbytes]) rfl

/-- An unwrap call delivers DOC's key, or AuthenticationFailure where DOC has it. -/
theorem doneRegs_result_of_unwrap (bc : BlockCipher) {data kek : List Byte} (rest : Payload)
    (hv : valid .unwrap kek.length data.length = true) :
    (ApiCall.doneRegs bc ⟨.unwrap, data, kek, rest⟩).readout.result = some (docCall bc .unwrap data kek) := by
  obtain ⟨hklen, hdlen⟩ := (valid_eq_true_iff _ _ _).mp hv
  obtain ⟨hkek, hdin⟩ := payloadOf_of_valid rest hv
  have hlen : data.length = kek.length + 8 := hdlen
  obtain ⟨hsome, hnone, -⟩ :=
    unwrapCallComputesUnwrapf bc kek.length (payloadOf rest data kek) hklen _ _ rfl rfl
  rw [← callKek, hkek, ← hlen, hdin] at hsome hnone
  rw [ApiCall.doneRegs, ApiCall.turns, callTurns_of_valid hv]
  cases hunwrap : unwrapF bc.dec ⟨kek.length, kek⟩ data with
  | some key =>
    have hbytes : key.length = 8 * (kek.length / 8) := unwrapF_length hunwrap
    have hkeylen : key.length = kek.length := by omega
    rw [docCall_unwrap_of_some hv hunwrap]
    simp only [ApiCall.startRegs, Regs.start, hsome key hunwrap]
    exact Regs.readout_result_of_bytes rfl (by omega) (by rw [hkeylen]) rfl
  | none =>
    rw [docCall_unwrap_of_none hv hunwrap]
    simp only [ApiCall.startRegs, Regs.start, hnone hunwrap]
    exact Regs.readout_result_of_authFailure rfl

/-- The sample taken of a call in DONE says what DOC's function gives. -/
theorem ApiCall.doneRegs_result (bc : BlockCipher) (c : ApiCall) :
    (c.doneRegs bc).readout.result = some (docCall bc c.dir c.data c.kek) := by
  obtain ⟨dir, data, kek, rest⟩ := c
  cases hv : valid dir kek.length data.length with
  | false =>
    rw [ApiCall.doneRegs, ApiCall.turns, callTurns_of_invalid hv, ApiCall.startRegs, Regs.start_of_invalid _ _ hv,
      docCall_of_invalid hv]
    exact Regs.readout_result_of_invalidLength rfl
  | true =>
    cases dir with
    | wrap => exact doneRegs_result_of_wrap bc rest hv
    | unwrap => exact doneRegs_result_of_unwrap bc rest hv

end Sys2Proof.Machine
end

section
/-! An API call as a list of turns (44_host.md rule R208): the proof of O50. -/

namespace Sys2Proof.Machine

/-! ### The host's turns -/

theorem presentStimulus_eq_setInputs (s : State) {x : Stimulus} (hx : ∀ sel, x ≠ .selector sel) :
    presentStimulus s x = s.setInputs (turnOf x :: s.inputs) := by
  cases x with
  | selector sel => exact absurd rfl (hx sel)
  | command hc pay => rfl
  | readPort => rfl
  | resetLine => rfl

/-- A turn on which the host issues an instruction is a step of that instruction. -/
theorem step_of_hostTurn {s : State} {i : Instr} {rest : List Input} (hs : s.inputs = turnOf (encode i) :: rest)
    (hx : ∀ sel, encode i ≠ .selector sel) (hwf : i.wf = true) : step s = exec i (s.setInputs rest) := by
  have hpresent : presentStimulus (s.setInputs rest) (encode i) = s := by
    rw [presentStimulus_eq_setInputs _ hx, State.setInputs_inputs, ← hs]
    rfl
  rw [← issue_of_ok _ i hx (decode_encode i hwf), issue, hpresent]

/-! ### The START, the sample and the release -/

theorem ApiCall.encode_start_ne_selector (c : ApiCall) (sel : BitVec 3) : encode c.start ≠ .selector sel := by
  rcases c with ⟨_ | _, _, _, _⟩ <;> exact nofun

theorem ApiCall.exec_start_of_reset (c : ApiCall) {s : State} (h : s.regs = Regs.reset) :
    exec c.start s = .next (s.setRegs c.startRegs) := by
  have hst : s.regs.st = .idle := by rw [h]; rfl
  rcases c with ⟨_ | _, _, _, _⟩
  · rw [ApiCall.start, exec_startW_ready _ _ _ _ hst, h]; rfl
  · rw [ApiCall.start, exec_startU_ready _ _ _ _ hst, h]; rfl

/-- The machine when the call is over, with `rest` the turns then to come. -/
def ApiCall.endState (c : ApiCall) (s : State) (rest : List Input) : State :=
  { regs := Regs.reset, inputs := rest, requests := s.requests ++ c.requests Config.blockCipher,
    reads := s.reads ++ [(c.doneRegs Config.blockCipher).readout] }

/-- The release after the sample leaves the engine ready. -/
theorem ApiCall.exec_ack_of_done (c : ApiCall) {s t : State} (hregs : t.regs = c.doneRegs Config.blockCipher)
    (hrequests : t.requests = s.requests ++ c.requests Config.blockCipher)
    (hreads : t.reads = s.reads ++ [(c.doneRegs Config.blockCipher).readout]) :
    exec (.ack 0#17) t = .next (c.endState s t.inputs) := by
  have hst : t.regs.st = .done := by rw [hregs]; exact c.doneRegs_st _
  rw [exec_ack_done t 0#17 hst, hregs, c.doneRegs_release, ApiCall.endState, ← hrequests, ← hreads]
  rfl

/-! ### The list of turns -/

/-- The turns of the call after its START and the engine's own. -/
def ApiCall.lastTurns : List Input := [turnOf (encode .read), turnOf (encode (.ack 0#17))]

theorem apiTurns_eq_some_iff (c : ApiCall) (turns : List Input) :
    apiTurns c = some turns ↔
      c.tooLong = false ∧
        turns = turnOf (encode c.start) :: (List.replicate c.turns .engineTurn ++ ApiCall.lastTurns) := by
  cases hlong : c.tooLong <;> simp [apiTurns, hlong, eq_comm, ApiCall.turns, ApiCall.lastTurns]

theorem take_replicate_engineTurn {k : Nat} (l : List Input) :
    ∀ x ∈ (List.replicate k Input.engineTurn ++ l).take k, x = .engineTurn := by
  intro x hx
  rw [List.take_left' List.length_replicate] at hx
  exact List.eq_of_mem_replicate hx

section
variable (c : ApiCall) {s : State} {rest : List Input}

theorem ApiCall.step_start (hfits : c.tooLong = false) (hreset : s.regs = Regs.reset)
    (hs : s.inputs = turnOf (encode c.start) :: rest) :
    step s = .next ((s.setInputs rest).setRegs c.startRegs) := by
  rw [step_of_hostTurn hs c.encode_start_ne_selector (c.start_wf hfits)]
  exact c.exec_start_of_reset hreset

/-- READ and ACK, on the machine in DONE. -/
theorem ApiCall.run_lastTurns {t : State} (ht : t.inputs = ApiCall.lastTurns ++ rest)
    (hregs : t.regs = c.doneRegs Config.blockCipher)
    (hrequests : t.requests = s.requests ++ c.requests Config.blockCipher) (hreads : t.reads = s.reads) :
    Sys2Proof.core.run 2 t = .next (c.endState s rest) := by
  have hread := step_of_hostTurn ht nofun rfl
  rw [exec_read] at hread
  have hack : step ((t.setInputs (turnOf (encode (.ack 0#17)) :: rest)).logRead t.regs.readout) =
      .next (c.endState s rest) :=
    (step_of_hostTurn (i := .ack 0#17) rfl nofun rfl).trans
      (c.exec_ack_of_done hregs hrequests (by rw [← hreads, ← hregs]; rfl))
  exact (machine_run_step hread 1).trans (machine_run_step hack 0)

/-- On an engine that is ready, the turns of the call end it. -/
theorem ApiCall.run_turns (hfits : c.tooLong = false) (hreset : s.regs = Regs.reset)
    (hs : s.inputs = turnOf (encode c.start) :: (List.replicate c.turns .engineTurn ++ (ApiCall.lastTurns ++ rest))) :
    Sys2Proof.core.run (c.turns + 2 + 1) s = .next (c.endState s rest) := by
  refine (machine_run_step (c.step_start hfits hreset hs) _).trans ?_
  refine (core_run_add Sys2Proof.core (run_of_engineTurns (take_replicate_engineTurn _))).trans ?_
  exact c.run_lastTurns (List.drop_left' List.length_replicate) rfl rfl rfl

end

/-- Settles O50: START, the engine's turns, READ and ACK, and what the call computes. -/
theorem apiCallComputesDocsFunction : Obligations.ApiCallComputesDocsFunction := by
  intro s c turns rest hreset hturns hs
  obtain ⟨hfits, rfl⟩ := (apiTurns_eq_some_iff c turns).mp hturns
  rw [List.cons_append, List.append_assoc] at hs
  have hlen : (turnOf (encode c.start) :: (List.replicate c.turns .engineTurn ++ ApiCall.lastTurns)).length =
      c.turns + 2 + 1 := by
    simp [ApiCall.lastTurns]
  refine ⟨_, _, ?run, c.doneRegs_result _, c.requests_spec Config.blockCipher⟩
  case run =>
    rw [hlen]
    exact c.run_turns hfits hreset hs

end Sys2Proof.Machine
end

section
/-! The driver from its entry to its return (44_host.md rule R208): the proof of O54. -/

namespace Sys2Proof.Machine

theorem driver_run_step {c : ApiCall} {a b : Session} (h : driverStep c a = .next b) (k : Nat) :
    (driver c).run (k + 1) a = (driver c).run k b := core_run_step (driver c) k a b h

section
variable (c : ApiCall) {s t : State}

/-- While the driver waits, it runs as the machine does: for a phase that steps with the machine wherever a level is
down, as long as the level is down. -/
theorem driver_run_of_waiting {p : Phase} {Up : State → Prop}
    (hphase : ∀ {a b : State}, ¬ Up a → step a = .next b → driverStep c ⟨a, p⟩ = .next ⟨b, p⟩) {w : Nat}
    (hwait : ∀ k a, k < w → Sys2Proof.core.run k s = .next a → ¬ Up a) (hrun : Sys2Proof.core.run w s = .next t) :
    (driver c).run w ⟨s, p⟩ = .next ⟨t, p⟩ := by
  induction w generalizing s with
  | zero => cases hrun; rfl
  | succ w ih =>
    obtain ⟨b, hstep⟩ := everyStepAnswersANextState s
    have hb (k : Nat) : Sys2Proof.core.run (k + 1) s = Sys2Proof.core.run k b := machine_run_step hstep k
    refine (driver_run_step (hphase (hwait 0 s w.succ_pos rfl) hstep) w).trans (ih ?_ ?_)
    · exact fun k a hk ha => hwait (k + 1) a (Nat.succ_lt_succ hk) ((hb k).trans ha)
    · exact (hb w).symm.trans hrun

theorem ApiCall.driver_run_waitReady {w : Nat}
    (hwait : ∀ k a, k < w → Sys2Proof.core.run k s = .next a → a.regs.st ≠ .idle)
    (hrun : Sys2Proof.core.run w s = .next t) : (driver c).run w ⟨s, .waitReady⟩ = .next ⟨t, .waitReady⟩ :=
  driver_run_of_waiting c (Up := fun a => a.regs.st = .idle) driverStep_waitReady_of_not_idle hwait hrun

/-- After the START the driver waits for as many turns as the call takes. -/
theorem ApiCall.driver_run_waitDone (hregs : s.regs = c.startRegs) (hs : ∀ x ∈ s.inputs, x = .engineTurn) :
    (driver c).run c.turns ⟨s, .waitDone⟩ = .next ⟨s.afterTurns c.turns, .waitDone⟩ := by
  have hrun (k : Nat) : Sys2Proof.core.run k s = .next (s.afterTurns k) :=
    run_of_engineTurns fun x hx => hs x (List.mem_of_mem_take hx)
  refine driver_run_of_waiting c (Up := fun a => a.regs.st = .done) driverStep_waitDone_of_not_done ?_ (hrun _)
  intro k a hk ha
  obtain rfl : s.afterTurns k = a := Host.Outcome.next.inj ((hrun k).symm.trans ha)
  show (engineRun _ k s.regs).st ≠ .done
  rw [hregs]
  exact engineRun_st_ne_done _ _ _ _ _ hk

/-- Sample, ACK and return, on the machine in DONE. -/
theorem ApiCall.driver_run_sample (hregs : t.regs = c.doneRegs Config.blockCipher)
    (hrequests : t.requests = s.requests ++ c.requests Config.blockCipher) (hreads : t.reads = s.reads) :
    (driver c).run 2 ⟨t, .waitDone⟩ =
      .next ⟨c.endState s t.inputs, .returned (some (docCall Config.blockCipher c.dir c.data c.kek))⟩ := by
  have hst : t.regs.st = .done := by rw [hregs]; exact c.doneRegs_st _
  have hack : exec (.ack 0#17) (t.logRead t.regs.readout) = .next (c.endState s t.inputs) :=
    c.exec_ack_of_done hregs hrequests (by rw [← hreads, ← hregs]; rfl)
  have hresult : t.regs.readout.result = some (docCall Config.blockCipher c.dir c.data c.kek) := by
    rw [hregs]
    exact c.doneRegs_result _
  rw [← hresult]
  exact (driver_run_step (driverStep_waitDone_of_done hst) 1).trans (driver_run_step (driverStep_acknowledge _ hack) 0)

/-- From the engine ready, with only its own turns to come, to the driver's return. -/
theorem ApiCall.driver_run_of_ready (hfits : c.tooLong = false) (hreset : s.regs = Regs.reset)
    (hs : ∀ x ∈ s.inputs, x = .engineTurn) :
    (driver c).run (c.turns + 2 + 1) ⟨s, .waitReady⟩ =
      .next ⟨c.endState s (s.inputs.drop c.turns),
        .returned (some (docCall Config.blockCipher c.dir c.data c.kek))⟩ := by
  have hidle : s.regs.st = .idle := by rw [hreset]; rfl
  have hstart := driverStep_waitReady_of_idle hfits hidle (c.exec_start_of_reset hreset)
  refine (driver_run_step hstart _).trans ?_
  refine (core_run_add (driver c) (c.driver_run_waitDone (s := s.setRegs c.startRegs) rfl hs)).trans ?_
  exact c.driver_run_sample rfl rfl rfl

/-- From entry, where the engine becomes ready after w steps. -/
theorem ApiCall.driver_run_of_entry (hfits : c.tooLong = false) {w : Nat}
    (hwait : ∀ k a, k < w → Sys2Proof.core.run k s = .next a → a.regs.st ≠ .idle)
    (hrun : Sys2Proof.core.run w s = .next t) (hreset : t.regs = Regs.reset)
    (ht : ∀ x ∈ t.inputs, x = .engineTurn) :
    (driver c).run (w + c.turns + 4) ⟨s, .entry⟩ =
      .next ⟨c.endState t (t.inputs.drop c.turns),
        .returned (some (docCall Config.blockCipher c.dir c.data c.kek))⟩ := by
  rw [show w + c.turns + 4 = w + (c.turns + 2 + 1) + 1 by omega]
  refine (driver_run_step (driverStep_entry_of_fits hfits) _).trans ?_
  refine (core_run_add (driver c) (c.driver_run_waitReady hwait hrun)).trans ?_
  exact c.driver_run_of_ready hfits hreset ht

end

/-- Settles O54: the waits are runs of the machine, and in between the driver does what the turns of the call do. -/
theorem driverComputesDocsFunction : Obligations.DriverComputesDocsFunction := by
  refine ⟨fun c s u w hkek hdata hwait hrun hinv hidle hinputs => ?fits, fun c s hlong => ?tooLong⟩
  case fits =>
    have hfits := c.tooLong_eq_false_iff.mpr ⟨hkek, hdata⟩
    exact ⟨_, _, _, rfl, c.driver_run_of_entry hfits hwait hrun (hinv.of_idle hidle) hinputs,
      c.requests_spec Config.blockCipher⟩
  case tooLong =>
    have hdoc := driverRefusesOnlyInvalidLengths Config.blockCipher c ((apiTurns_eq_none_iff c).mpr hlong)
    rw [hdoc]
    exact driver_run_step (driverStep_entry_of_tooLong (c.tooLong_iff.mpr hlong)) 0

end Sys2Proof.Machine
end

section
/-! `RES` after every instruction, and which instruction raises which error: the proof of O35. -/

namespace Sys2Proof.Machine

/-! ### `RES` after the registers' operations -/

theorem Regs.startWrap_res (e : Regs) (klen dlen : Nat) (pay : Payload) :
    (e.startWrap klen dlen pay).res = if valid .wrap klen dlen then e.res else .invalidLength := by
  rw [Regs.startWrap]; split <;> rfl

theorem Regs.startUnwrap_res (e : Regs) (klen dlen : Nat) (pay : Payload) :
    (e.startUnwrap klen dlen pay).res = if valid .unwrap klen dlen then e.res else .invalidLength := by
  rw [Regs.startUnwrap]; split <;> rfl

theorem Regs.wrapRound_res (bc : BlockCipher) (e : Regs) : (e.wrapRound bc).res = e.res := by
  obtain ⟨-, -, -, -, hres, -⟩ := e.wrapRound_keep bc
  exact hres

theorem Regs.unwrapRound_res (bc : BlockCipher) (e : Regs) : (e.unwrapRound bc).res = e.res := by
  obtain ⟨-, -, -, -, hres, -⟩ := e.unwrapRound_keep bc
  exact hres

theorem Regs.unwrapFinish_res (e : Regs) : e.unwrapFinish.res = if e.a = Config.iv then .ok else .authFailure := by
  rw [Regs.unwrapFinish]; split <;> rfl

/-! ### What changes `RES` (60_exceptions.md rules R221, R222 and R224) -/

/-- A START in IDLE whose lengths are not `VALID`. -/
def InvalidStart (i : Instr) (s : State) : Prop :=
  s.regs.st = .idle ∧ ∃ klen dlen pay, (i = .startW klen dlen pay ∧ valid .wrap klen dlen = false) ∨
    (i = .startU klen dlen pay ∧ valid .unwrap klen dlen = false)

/-- A UFIN at the end of an unwrap whose `A` is not `IV`. -/
def FailedCheck (i : Instr) (s : State) : Prop :=
  i = .ufin ∧ s.regs.st = .fin ∧ s.regs.dir = .unwrap ∧ s.regs.a ≠ Config.iv

/-- A changed `RES` reports success, is back at its reset value, or holds an error raised under its own condition. -/
theorem exec_res_ne {i : Instr} {s t : State} (h : exec i s = .next t) (hne : t.regs.res ≠ s.regs.res) :
    t.regs.res = .ok ∨ t.regs.res = .none ∨ (t.regs.res = .invalidLength ∧ InvalidStart i s) ∨
      (t.regs.res = .authFailure ∧ FailedCheck i s) := by
  obtain rfl | ⟨k, d, p, rfl, hst, rfl⟩ | ⟨k, d, p, rfl, hst, rfl⟩ | ⟨x, -, -, rfl⟩ | ⟨-, -, -, rfl⟩ |
    ⟨-, -, -, rfl⟩ | ⟨-, -, -, rfl⟩ | ⟨rfl, hst, hdir, rfl⟩ | ⟨-, rfl⟩ | ⟨-, rfl⟩ := exec_cases i s t h
  · exact absurd rfl hne
  · have hres := s.regs.startWrap_res k d p
    cases hv : valid .wrap k d <;> rw [hv] at hres
    · exact .inr (.inr (.inl ⟨hres, hst, k, d, p, .inl ⟨rfl, hv⟩⟩))
    · exact absurd hres hne
  · have hres := s.regs.startUnwrap_res k d p
    cases hv : valid .unwrap k d <;> rw [hv] at hres
    · exact .inr (.inr (.inl ⟨hres, hst, k, d, p, .inr ⟨rfl, hv⟩⟩))
    · exact absurd hres hne
  · exact .inr (.inl rfl)
  · exact absurd (Regs.wrapRound_res _ _) hne
  · exact absurd (Regs.unwrapRound_res _ _) hne
  · exact .inl rfl
  · have hres := s.regs.unwrapFinish_res
    by_cases ha : s.regs.a = Config.iv
    · exact .inl (hres.trans (if_pos ha))
    · exact .inr (.inr (.inr ⟨hres.trans (if_neg ha), rfl, hst, hdir, ha⟩))
  · exact absurd rfl hne
  · exact .inr (.inl rfl)

/-- Only an invalid START raises InvalidLength. -/
theorem invalidStart_of_exec {i : Instr} {s t : State} (h : exec i s = .next t) (ht : t.regs.res = .invalidLength)
    (hs : s.regs.res ≠ .invalidLength) : InvalidStart i s := by
  obtain hok | hnone | ⟨-, hstart⟩ | ⟨hauth, -⟩ := exec_res_ne h (ht ▸ hs.symm)
  · nomatch ht.symm.trans hok
  · nomatch ht.symm.trans hnone
  · exact hstart
  · nomatch ht.symm.trans hauth

/-- Only a failed check raises AuthenticationFailure. -/
theorem failedCheck_of_exec {i : Instr} {s t : State} (h : exec i s = .next t) (ht : t.regs.res = .authFailure)
    (hs : s.regs.res ≠ .authFailure) : FailedCheck i s := by
  obtain hok | hnone | ⟨hinvalid, -⟩ | ⟨-, hcheck⟩ := exec_res_ne h (ht ▸ hs.symm)
  · nomatch ht.symm.trans hok
  · nomatch ht.symm.trans hnone
  · nomatch ht.symm.trans hinvalid
  · exact hcheck

/-- Settles O35: what changes `RES` gives the only-if half, the enabled START or UFIN its error. -/
theorem errorsAreRaisedAsTheTableSays : Obligations.ErrorsAreRaisedAsTheTableSays := by
  intro s t i h
  refine ⟨invalidStart_of_exec h, failedCheck_of_exec h, fun klen dlen pay hst hi hv => ?startW,
    fun klen dlen pay hst hi hv => ?startU, fun hst hdir ha hi => ?ufin⟩ <;> subst hi
  case startW =>
    cases h.symm.trans (exec_startW_ready s klen dlen pay hst)
    rw [State.setRegs_regs, Regs.startWrap_res, hv]
    rfl
  case startU =>
    cases h.symm.trans (exec_startU_ready s klen dlen pay hst)
    rw [State.setRegs_regs, Regs.startUnwrap_res, hv]
    rfl
  case ufin =>
    cases h.symm.trans (exec_ufin_enabled s hst hdir)
    exact s.regs.unwrapFinish_res.trans (if_neg ha)

end Sys2Proof.Machine
end

section
/-! A call in progress counts its rounds down: each turn of the engine makes one, and after the last the call finishes:
the proof of O42. -/

namespace Sys2Proof.Machine

/-- A call, of either direction, that has `left` of its 6n rounds to make. -/
def Regs.RoundsLeft (left : Nat) (e : Regs) : Prop :=
  ∃ n k, n ≤ 4 ∧ k + left = 6 * n ∧ (e.AtWrapRound n k ∨ e.AtUnwrapRound n k)

theorem Regs.RoundsLeft.st_eq_fin {e : Regs} (h : e.RoundsLeft 0) : e.st = .fin := by
  obtain ⟨n, k, -, rfl, hwrap | hunwrap⟩ := h
  · exact hwrap.fin_of_eq.1
  · exact hunwrap.fin_of_eq.1

theorem Regs.RoundsLeft.st_eq_run {left : Nat} {e : Regs} (h : e.RoundsLeft (left + 1)) : e.st = .run := by
  obtain ⟨n, k, -, hleft, hwrap | hunwrap⟩ := h
  · exact (hwrap.run_of_lt (by omega)).1
  · exact (hunwrap.run_of_lt (by omega)).1

/-- As long as rounds are left, the engine's turn makes one. -/
theorem Regs.RoundsLeft.engineRegs (bc : BlockCipher) {left : Nat} {e : Regs} (h : e.RoundsLeft (left + 1)) :
    (engineRegs bc e).RoundsLeft left := by
  have hst := h.st_eq_run
  obtain ⟨n, k, hn, hleft, hwrap | hunwrap⟩ := h
  · have ⟨_, hdir, _⟩ := hwrap
    rw [engineRegs_of_run_wrap bc hst hdir]
    exact ⟨n, k + 1, hn, by omega, .inl (hwrap.wrapRound bc hn (by omega))⟩
  · have ⟨_, hdir, _⟩ := hunwrap
    rw [engineRegs_of_run_unwrap bc hst hdir]
    exact ⟨n, k + 1, hn, by omega, .inr (hunwrap.unwrapRound bc hn (by omega))⟩

theorem Regs.RoundsLeft.engineRun (bc : BlockCipher) (k : Nat) {left : Nat} {e : Regs}
    (h : e.RoundsLeft (left + k)) : (engineRun bc k e).RoundsLeft left := by
  induction k generalizing e with
  | zero => exact h
  | succ k ih => exact ih (h.engineRegs bc)

theorem Regs.RoundsLeft.st_ne_done {left : Nat} {e : Regs} (h : e.RoundsLeft left) : e.st ≠ .done := by
  cases left with
  | zero => simp [h.st_eq_fin]
  | succ left => simp [h.st_eq_run]

/-! ### The rounds left at a position (10_state.md rule R36) -/

/-- A wrap at step index t has made t - 1 rounds. -/
theorem Regs.InCall.roundsLeft_of_wrap {e : Regs} (h : e.InCall) (hst : e.st = .run) (hdir : e.dir = .wrap)
    {left : Nat} (hleft : left + e.n.toNat * e.j.toNat + e.i.toNat = 6 * e.n.toNat) : e.RoundsLeft left := by
  have hn := h.n_cases
  obtain ⟨-, -, hj, hi, -⟩ := h
  exact ⟨e.n.toNat, e.n.toNat * e.j.toNat + e.i.toNat, by omega, by omega,
    .inl ⟨rfl, hdir, .inl ⟨hst, hj, hi, rfl⟩⟩⟩

/-- An unwrap at step index t has t rounds to make, the one at t among them. -/
theorem Regs.InCall.roundsLeft_of_unwrap {e : Regs} (h : e.InCall) (hst : e.st = .run) (hdir : e.dir = .unwrap) :
    e.RoundsLeft e.counter := by
  have hn := h.n_cases
  obtain ⟨-, -, hj, hi, -⟩ := h
  have hle : e.counter ≤ 6 * e.n.toNat := ctr_le_mul (Nat.lt_succ_of_le hj) hi
  exact ⟨e.n.toNat, 6 * e.n.toNat - e.counter, by omega, Nat.sub_add_cancel hle,
    .inr ⟨rfl, hdir, .inl ⟨hst, hj, hi, Nat.add_sub_cancel' hle⟩⟩⟩

/-- A call in FIN stands at its last position with every round made. -/
theorem Regs.Inv.roundsLeft_of_fin {e : Regs} (h : e.Inv) (hst : e.st = .fin) : e.RoundsLeft 0 := by
  obtain ⟨hcall, hlast⟩ := h.of_fin hst
  have hn := hcall.n_cases
  refine ⟨e.n.toNat, 6 * e.n.toNat, by omega, rfl, ?_⟩
  cases hdir : e.dir with
  | wrap =>
    obtain ⟨hj, hi⟩ : e.j = 5#3 ∧ e.i.toNat + 1 = e.n.toNat := by simpa only [Regs.AtLast, hdir] using hlast
    exact .inl ⟨rfl, hdir, .inr ⟨hst, hj, hi, rfl⟩⟩
  | unwrap =>
    obtain ⟨hj, hi⟩ : e.j = 0#3 ∧ e.i = 0#2 := by simpa only [Regs.AtLast, hdir] using hlast
    exact .inr ⟨rfl, hdir, .inr ⟨hst, hj, hi, rfl⟩⟩

/-- Settles O42: the rounds left count down to FIN, one turn before DONE. -/
theorem everyRunningCallReachesDone : Obligations.EveryRunningCallReachesDone := by
  intro bc e hinv left hpos
  have hrounds : e.RoundsLeft left := by
    obtain ⟨hst, hdir, hleft⟩ | ⟨hst, hdir, rfl⟩ | ⟨hst, rfl⟩ := hpos
    · exact (hinv.of_run hst).roundsLeft_of_wrap hst hdir hleft
    · exact (hinv.of_run hst).roundsLeft_of_unwrap hst hdir
    · exact hinv.roundsLeft_of_fin hst
  constructor
  · rw [engineRun_succ]
    have hlast : (engineRun bc left e).RoundsLeft 0 := Regs.RoundsLeft.engineRun bc left (by rwa [Nat.zero_add])
    exact engineRegs_st_of_fin bc hlast.st_eq_fin
  · intro k hk
    rw [← Nat.sub_add_cancel hk] at hrounds
    exact (hrounds.engineRun bc k).st_ne_done

end Sys2Proof.Machine
end

section
/-! The reset input: the proof of O25. -/

namespace Sys2Proof.Machine

/-- Settles O25: RESET, which no state guards, sets the reset registers. -/
theorem resetClearsEveryRegister : Obligations.ResetClearsEveryRegister := exec_reset

end Sys2Proof.Machine
end

section
/-! What a READ samples in each state of the invariant (44_host.md rule R203): the proof of O24. -/

namespace Sys2Proof.Machine

/-- Where no result is delivered, a sample shows the status word and zero bytes. -/
theorem Regs.Inv.readout_eq {e : Regs} (h : e.Inv) (hnot : ¬ (e.st = .done ∧ e.res = .ok)) :
    e.readout = { status := e.status, dout := Vector.replicate 40 0#8 } := by
  obtain ⟨-, hdout⟩ := h.noOutput hnot
  rw [Regs.readout, hdout]

/-- Settles O24: the rows of the table are the values of the status word, with `DOUT` as the invariant has it. -/
theorem readSamplesStatusAndDout : Obligations.ReadSamplesStatusAndDout := by
  refine fun s => ⟨exec_read s, fun hinv => ?_⟩
  obtain ⟨-, -, -, hstatus⟩ := statusWordOfEveryState s.regs
  obtain ⟨hidle, hrun, hfin, hinvalid, hauth, -⟩ := hstatus hinv
  refine ⟨fun hst => ?idle, fun hst => ?run, fun hst => ?fin, fun hst hok => ⟨?okStatus, rfl, ?okDout⟩,
    fun hst hres => ?invalidLength, fun hst hres => ?authFailure⟩
  case idle => rw [hinv.readout_eq (by simp [hst]), hidle hst]
  case run => rw [hinv.readout_eq (by simp [hst]), hrun hst]
  case fin => rw [hinv.readout_eq (by simp [hst]), hfin hst]
  case okStatus => rw [Regs.readout, Regs.status, hst, hok]; rfl
  case okDout => exact (hinv.output hst hok).2
  case invalidLength => rw [hinv.readout_eq (by simp [hres]), hinvalid hst hres]
  case authFailure => rw [hinv.readout_eq (by simp [hres]), hauth hst hres]

end Sys2Proof.Machine
end

section
/-! `MemRead` beyond the end of a buffer (20_memory.md rule R62): the proof of O52. -/

namespace Sys2Proof.Machine

/-- Settles O52: byte k read is the list's entry at `off + k`, or zero where the list has none. -/
theorem readsBeyondABufferGiveZeroBytes : Obligations.ReadsBeyondABufferGiveZeroBytes := by
  intro buf off m k hk hend
  rw [memRead_byte buf off m k hk, List.getD_eq_default buf 0#8 hend]

end Sys2Proof.Machine
end
